-- ==== Sys2Proof/Word.lean ====
section
/-! DEFINITION. The word types of the block (10_state.md R20, R29; 00_scope.md R7): all values are
unsigned, bit 0 is the least significant bit. -/

namespace Sys2Proof

/-- An 8-bit input byte or table index (R6, `IMM8` of R62). -/
abbrev Byte := BitVec 8

/-- A 16-bit value: the CRC register, a table entry, response data (R6, R24). -/
abbrev Half := BitVec 16

/-- A 32-bit command word, `cmd_data` (R29, R60). -/
abbrev Word := BitVec 32

end Sys2Proof
end

