-- ==== Sys2Proof/Config.lean ====
section
/-! DEFINITION. What is fixed for the block and does not change while it runs: the hardwired
constants (00_scope.md R6, 10_state.md R22, R31), the build parameter `ENGINE` (R27), the latency
parameters (70_reset_and_hazards.md R168), and the one free value (60_exceptions.md R154). -/

namespace Sys2Proof.Config

/-- `POLY` (R22): the low 16 bits of 0x13D65, hardwired. -/
abbrev poly : Half := 0x3D65#16

/-- The finalizer's XOR value (R6, R120). -/
abbrev finalXor : Half := 0xFFFF#16

/-- The reset value of `crc` (R31, R161). -/
abbrev resetCrc : Half := 0x0000#16

/-- What `crc` holds between a loss of power and the next reset: unspecified, a free draw (R154, R162,
93_implementation_defined.md I5). One value for each draw, and nothing constrains any (log 6). -/
opaque unresetCrc : Nat → Half

/-- The build parameter `ENGINE` (R27). It is no state, and no command's result depends on it (R84);
no constant of the model picks one, so a claim about engines is a claim about both. -/
inductive Engine where
  | bitSerial
  | table
deriving DecidableEq, Repr

/-- The latency parameters of R168. No step of the machine reads them: a claim about time takes
them as an argument. -/
structure Latency where
  latByte : Nat
  latOther : Nat
deriving DecidableEq, Repr

/-- Both latencies are at least one cycle (R168). -/
abbrev Latency.legal (l : Latency) : Prop := 1 ≤ l.latByte ∧ 1 ≤ l.latOther

end Sys2Proof.Config
end

