-- ==== Sys2Proof/Machine/Operands.lean ====
section
/-! DEFINITION. The operand forms of the computations: how a byte meets the register
(20_memory.md R41(a), 40_accumulate.md R80, R81). The fields of a command word are read in
Decode.lean (30_encoding.md R62). -/

namespace Sys2Proof.Machine

/-- `zext_16(b) << 8`: the byte in the high half, `b[7]` at bit 15 (R41(a), R80). -/
def byteInHigh (b : Byte) : Half := b.setWidth 16 <<< 8

/-- `r[15:8]` (R81). -/
def highByte (r : Half) : Byte := r.extractLsb' 8 8

/-- `r[7:0]` (R81). -/
def lowByte (r : Half) : Byte := r.extractLsb' 0 8

/-- The table index `((r >> 8) ^ zext_16(b)) & 0xFF`, which is `r[15:8] ^ b` (R81). -/
def tableIndex (r : Half) (b : Byte) : Byte := ((r >>> 8) ^^^ b.setWidth 16).setWidth 8

end Sys2Proof.Machine
end

