-- ==== Sys2Proof/Machine/Rom.lean ====
section
/-! DEFINITION. The contents of the table ROM, transcribed row by row from 41_table.md R100, and the
ROM read primitive (R101). The ROM is a constant, not state (10_state.md R23). -/

namespace Sys2Proof.Machine

/-- Entries 0x00 to 0x0F (R100). -/
def romRow0 : List Half :=
  [0x0000#16, 0x3D65#16, 0x7ACA#16, 0x47AF#16, 0xF594#16, 0xC8F1#16, 0x8F5E#16, 0xB23B#16,
   0xD64D#16, 0xEB28#16, 0xAC87#16, 0x91E2#16, 0x23D9#16, 0x1EBC#16, 0x5913#16, 0x6476#16]

/-- Entries 0x10 to 0x1F (R100). -/
def romRow1 : List Half :=
  [0x91FF#16, 0xAC9A#16, 0xEB35#16, 0xD650#16, 0x646B#16, 0x590E#16, 0x1EA1#16, 0x23C4#16,
   0x47B2#16, 0x7AD7#16, 0x3D78#16, 0x001D#16, 0xB226#16, 0x8F43#16, 0xC8EC#16, 0xF589#16]

/-- Entries 0x20 to 0x2F (R100). -/
def romRow2 : List Half :=
  [0x1E9B#16, 0x23FE#16, 0x6451#16, 0x5934#16, 0xEB0F#16, 0xD66A#16, 0x91C5#16, 0xACA0#16,
   0xC8D6#16, 0xF5B3#16, 0xB21C#16, 0x8F79#16, 0x3D42#16, 0x0027#16, 0x4788#16, 0x7AED#16]

/-- Entries 0x30 to 0x3F (R100). -/
def romRow3 : List Half :=
  [0x8F64#16, 0xB201#16, 0xF5AE#16, 0xC8CB#16, 0x7AF0#16, 0x4795#16, 0x003A#16, 0x3D5F#16,
   0x5929#16, 0x644C#16, 0x23E3#16, 0x1E86#16, 0xACBD#16, 0x91D8#16, 0xD677#16, 0xEB12#16]

/-- Entries 0x40 to 0x4F (R100). -/
def romRow4 : List Half :=
  [0x3D36#16, 0x0053#16, 0x47FC#16, 0x7A99#16, 0xC8A2#16, 0xF5C7#16, 0xB268#16, 0x8F0D#16,
   0xEB7B#16, 0xD61E#16, 0x91B1#16, 0xACD4#16, 0x1EEF#16, 0x238A#16, 0x6425#16, 0x5940#16]

/-- Entries 0x50 to 0x5F (R100). -/
def romRow5 : List Half :=
  [0xACC9#16, 0x91AC#16, 0xD603#16, 0xEB66#16, 0x595D#16, 0x6438#16, 0x2397#16, 0x1EF2#16,
   0x7A84#16, 0x47E1#16, 0x004E#16, 0x3D2B#16, 0x8F10#16, 0xB275#16, 0xF5DA#16, 0xC8BF#16]

/-- Entries 0x60 to 0x6F (R100). -/
def romRow6 : List Half :=
  [0x23AD#16, 0x1EC8#16, 0x5967#16, 0x6402#16, 0xD639#16, 0xEB5C#16, 0xACF3#16, 0x9196#16,
   0xF5E0#16, 0xC885#16, 0x8F2A#16, 0xB24F#16, 0x0074#16, 0x3D11#16, 0x7ABE#16, 0x47DB#16]

/-- Entries 0x70 to 0x7F (R100). -/
def romRow7 : List Half :=
  [0xB252#16, 0x8F37#16, 0xC898#16, 0xF5FD#16, 0x47C6#16, 0x7AA3#16, 0x3D0C#16, 0x0069#16,
   0x641F#16, 0x597A#16, 0x1ED5#16, 0x23B0#16, 0x918B#16, 0xACEE#16, 0xEB41#16, 0xD624#16]

/-- Entries 0x80 to 0x8F (R100). -/
def romRow8 : List Half :=
  [0x7A6C#16, 0x4709#16, 0x00A6#16, 0x3DC3#16, 0x8FF8#16, 0xB29D#16, 0xF532#16, 0xC857#16,
   0xAC21#16, 0x9144#16, 0xD6EB#16, 0xEB8E#16, 0x59B5#16, 0x64D0#16, 0x237F#16, 0x1E1A#16]

/-- Entries 0x90 to 0x9F (R100). -/
def romRow9 : List Half :=
  [0xEB93#16, 0xD6F6#16, 0x9159#16, 0xAC3C#16, 0x1E07#16, 0x2362#16, 0x64CD#16, 0x59A8#16,
   0x3DDE#16, 0x00BB#16, 0x4714#16, 0x7A71#16, 0xC84A#16, 0xF52F#16, 0xB280#16, 0x8FE5#16]

/-- Entries 0xA0 to 0xAF (R100). -/
def romRowA : List Half :=
  [0x64F7#16, 0x5992#16, 0x1E3D#16, 0x2358#16, 0x9163#16, 0xAC06#16, 0xEBA9#16, 0xD6CC#16,
   0xB2BA#16, 0x8FDF#16, 0xC870#16, 0xF515#16, 0x472E#16, 0x7A4B#16, 0x3DE4#16, 0x0081#16]

/-- Entries 0xB0 to 0xBF (R100). -/
def romRowB : List Half :=
  [0xF508#16, 0xC86D#16, 0x8FC2#16, 0xB2A7#16, 0x009C#16, 0x3DF9#16, 0x7A56#16, 0x4733#16,
   0x2345#16, 0x1E20#16, 0x598F#16, 0x64EA#16, 0xD6D1#16, 0xEBB4#16, 0xAC1B#16, 0x917E#16]

/-- Entries 0xC0 to 0xCF (R100). -/
def romRowC : List Half :=
  [0x475A#16, 0x7A3F#16, 0x3D90#16, 0x00F5#16, 0xB2CE#16, 0x8FAB#16, 0xC804#16, 0xF561#16,
   0x9117#16, 0xAC72#16, 0xEBDD#16, 0xD6B8#16, 0x6483#16, 0x59E6#16, 0x1E49#16, 0x232C#16]

/-- Entries 0xD0 to 0xDF (R100). -/
def romRowD : List Half :=
  [0xD6A5#16, 0xEBC0#16, 0xAC6F#16, 0x910A#16, 0x2331#16, 0x1E54#16, 0x59FB#16, 0x649E#16,
   0x00E8#16, 0x3D8D#16, 0x7A22#16, 0x4747#16, 0xF57C#16, 0xC819#16, 0x8FB6#16, 0xB2D3#16]

/-- Entries 0xE0 to 0xEF (R100). -/
def romRowE : List Half :=
  [0x59C1#16, 0x64A4#16, 0x230B#16, 0x1E6E#16, 0xAC55#16, 0x9130#16, 0xD69F#16, 0xEBFA#16,
   0x8F8C#16, 0xB2E9#16, 0xF546#16, 0xC823#16, 0x7A18#16, 0x477D#16, 0x00D2#16, 0x3DB7#16]

/-- Entries 0xF0 to 0xFF (R100). -/
def romRowF : List Half :=
  [0xC83E#16, 0xF55B#16, 0xB2F4#16, 0x8F91#16, 0x3DAA#16, 0x00CF#16, 0x4760#16, 0x7A05#16,
   0x1E73#16, 0x2316#16, 0x64B9#16, 0x59DC#16, 0xEBE7#16, 0xD682#16, 0x912D#16, 0xAC48#16]

/-- `TABLE`: 256 entries of 16 bits (R23, R100). -/
def rom : List Half :=
  romRow0 ++ romRow1 ++ romRow2 ++ romRow3 ++ romRow4 ++ romRow5 ++ romRow6 ++ romRow7 ++
  romRow8 ++ romRow9 ++ romRowA ++ romRowB ++ romRowC ++ romRowD ++ romRowE ++ romRowF

/-- `RomRead(k)` (R101). The list has an entry for every index, so the default is never read. -/
def romRead (k : Byte) : Half := rom.getD k.toNat 0x0000#16

end Sys2Proof.Machine
end

