-- ==== Sys2Proof/Machine/Crc.lean ====
section
/-! DEFINITION. The arithmetic of the core: the bit-serial step (40_accumulate.md R80), the
table-driven step (R81), the block's byte step (R82), `compute` (00_scope.md R10) and the finalizer
(42_finalize.md R120). Every value is held in 16 bits (R83). -/

namespace Sys2Proof.Machine

/-- One iteration of R80: shift left, and XOR with `POLY` if the bit shifted out was set. -/
def shiftXor (x : Half) : Half :=
  if x.getLsbD 15 then (x <<< 1) ^^^ Config.poly else x <<< 1

/-- `n` iterations of R80. -/
def shiftXorN : Nat → Half → Half
  | 0, x => x
  | n + 1, x => shiftXorN n (shiftXor x)

/-- `step_bs(r, b)` (R80). -/
def stepBs (r : Half) (b : Byte) : Half := shiftXorN 8 (r ^^^ byteInHigh b)

/-- `step_tab(r, b)` (R81). -/
def stepTab (r : Half) (b : Byte) : Half := (r <<< 8) ^^^ romRead (tableIndex r b)

/-- The byte step of a build with the given engine (R82). -/
def engineStep : Config.Engine → Half → Byte → Half
  | .bitSerial => stepBs
  | .table => stepTab

/-- `step(r, b)`. DEDUCED (log 8): `step_bs` is the normative definition (R82), and both engines give
its value (R84), so the machine runs it. -/
def byteStep (r : Half) (b : Byte) : Half := stepBs r b

/-- `compute(r, bs)` (R10). -/
def compute : Half → List Byte → Half
  | r, [] => r
  | r, b :: bs => compute (byteStep r b) bs

/-- `compute` of a build with the given engine (R82). -/
def engineCompute (e : Config.Engine) : Half → List Byte → Half
  | r, [] => r
  | r, b :: bs => engineCompute e (engineStep e r b) bs

/-- `finalize(r)` (R120). -/
def finalize (r : Half) : Half := Config.finalXor ^^^ r

end Sys2Proof.Machine
end

