-- ==== Sys2Proof/Syntax.lean ====
section
/-! DEFINITION. The commands of the block (30_encoding.md R60, R63), the causes of IllegalCommand
(60_exceptions.md R140), and the lines of the assembler (30_encoding.md R68, R69). -/

namespace Sys2Proof

/-- The six commands, one constructor per row of the opcode table. Every operand is a field of the
command word, taken unchanged (R62). -/
inductive Instr where
  /-- LOAD: set `crc` (R85). -/
  | load (imm : Half)
  /-- BYTE: feed one byte into `crc` (R87). -/
  | byte (imm : Byte)
  /-- READ: return the raw register (R88). -/
  | read
  /-- FINAL: return the finalised register (R121). -/
  | final
  /-- FINV: finalise an operand (R122). -/
  | finv (imm : Half)
  /-- TBL: return one table entry (R102). -/
  | tbl (imm : Byte)
deriving DecidableEq, Repr

/-- The two causes of the one exception, IllegalCommand (R140). -/
inductive IllegalCause where
  /-- ILLEGAL_OPCODE: `cmd[31:24]` is 0x00 or 0x07 to 0xFF. -/
  | illegalOpcode
  /-- RESERVED_NONZERO: a defined opcode with a bit of its `RSV` field set. -/
  | reservedNonzero
deriving DecidableEq, Repr

namespace Asm

/-- A literal of the assembler: a number, written in hexadecimal or decimal, or a character (R68). -/
inductive Literal where
  | num (n : Nat)
  | chr (c : Char)
deriving DecidableEq, Repr

/-- One line of assembler source: a command (R68), the directive `.word`, a pseudo-instruction (R69),
or a line without either. -/
inductive Line where
  /-- A line that is empty or holds only a comment. R68 is silent on it, and the model takes it as no
  words: DESIGN CHOICE (log 11). -/
  | blank
  | load (v : Literal)
  | byte (b : Literal)
  | read
  | final
  | finv (v : Literal)
  | tbl (k : Literal)
  /-- `.word imm32`: a raw word, the only way to write an illegal one. -/
  | word (w : Literal)
  /-- `CLR` is `LOAD 0x0000`. -/
  | clr
  /-- `BYTES b0, b1, ...`: one BYTE each, possibly none. -/
  | bytes (bs : List Literal)
  /-- `STR "text"`: BYTES of the ASCII codes of the text. -/
  | str (text : List Char)
  /-- `FIN v` is `FINV v`. -/
  | fin (v : Literal)
  /-- `SAVE` is `READ`. -/
  | save
  /-- `RESTORE v` is `LOAD v`. -/
  | restore (v : Literal)
deriving DecidableEq, Repr

end Asm

end Sys2Proof
end

