-- ==== Sys2Proof/WellFormed.lean ====
section
/-! DEFINITION. Well-formedness. A command's operand is a field of its word (30_encoding.md R62), so
its type already bounds it and every command is well formed. An assembler line holds literals of any
size, and R68 makes a literal that does not fit its field an error: that is the check here. -/

namespace Sys2Proof

/-- Every operand value is legal for every command: LOAD and FINV take any 16-bit value (R85, R122),
BYTE and TBL any byte (R87, R102), READ and FINAL none (R88, R121). -/
def Instr.wellFormed : Instr → Bool
  | .load _ => true
  | .byte _ => true
  | .read => true
  | .final => true
  | .finv _ => true
  | .tbl _ => true

namespace Asm

/-- A number that fits `IMM16`; a character literal is for `IMM8` only (R68). -/
def Literal.fits16 : Literal → Bool
  | .num n => n ≤ 0xFFFF
  | .chr _ => false

/-- A number or an ASCII character that fits `IMM8` (R68). Which characters have an ASCII code is
DESIGN CHOICE (log 11): those below 128. -/
def Literal.fits8 : Literal → Bool
  | .num n => n ≤ 0xFF
  | .chr c => c.toNat < 128

/-- A number that fits the 32 bits of `.word`; a character literal is for `IMM8` only (R68). That a
larger number is an error is DESIGN CHOICE (log 11). -/
def Literal.fits32 : Literal → Bool
  | .num n => n ≤ 0xFFFFFFFF
  | .chr _ => false

/-- Every literal of the line fits its field (R68, R69). -/
def Line.wellFormed : Line → Bool
  | .blank => true
  | .load v => v.fits16
  | .byte b => b.fits8
  | .read => true
  | .final => true
  | .finv v => v.fits16
  | .tbl k => k.fits8
  | .word w => w.fits32
  | .clr => true
  | .bytes bs => bs.all Literal.fits8
  | .str text => text.all fun c => Literal.fits8 (.chr c)
  | .fin v => v.fits16
  | .save => true
  | .restore v => v.fits16

end Asm

end Sys2Proof
end

