-- ==== Sys2Proof/Decode.lean ====
section
/-! DEFINITION. The decoder, total over all 2^32 words and rejecting by name (30_encoding.md R60 to
R65), and after it the encoder, written from the same three layouts (R60). -/

namespace Sys2Proof

/-- `OP = cmd[31:24]` (R60). -/
def opField (w : Word) : Byte := w.extractLsb' 24 8

/-- `IMM16 = cmd[15:0]` (R62). -/
def imm16Field (w : Word) : Half := w.extractLsb' 0 16

/-- `IMM8 = cmd[7:0]` (R62). -/
def imm8Field (w : Word) : Byte := w.extractLsb' 0 8

/-- The `RSV` field of layout I16, `cmd[23:16]` (R60). -/
def rsvI16 (w : Word) : BitVec 8 := w.extractLsb' 16 8

/-- The `RSV` field of layout I8, `cmd[23:8]` (R60). -/
def rsvI8 (w : Word) : BitVec 16 := w.extractLsb' 8 16

/-- The `RSV` field of layout N, `cmd[23:0]` (R60). -/
def rsvN (w : Word) : BitVec 24 := w.extractLsb' 0 24

/-- A command whose reserved field must be zero (R64). -/
def unlessReserved {n : Nat} (rsv : BitVec n) (i : Instr) : Except IllegalCause Instr :=
  if rsv = 0#n then .ok i else .error .reservedNonzero

/-- The decoder (R64). The opcode is looked at before the reserved bits (R142). -/
def decode (w : Word) : Except IllegalCause Instr :=
  if opField w = 0x01#8 then unlessReserved (rsvI16 w) (.load (imm16Field w))
  else if opField w = 0x02#8 then unlessReserved (rsvI8 w) (.byte (imm8Field w))
  else if opField w = 0x03#8 then unlessReserved (rsvN w) .read
  else if opField w = 0x04#8 then unlessReserved (rsvN w) .final
  else if opField w = 0x05#8 then unlessReserved (rsvI16 w) (.finv (imm16Field w))
  else if opField w = 0x06#8 then unlessReserved (rsvI8 w) (.tbl (imm8Field w))
  else .error .illegalOpcode

/-- The decoder on a row of the opcode table: a command word has exactly 32 bits (R60, R66), and
the bits above `nbits` are zero. The word is one parallel transfer, so it has no byte order (R41(c)). -/
def decodeTableWord (nbits w : Nat) : Option Instr :=
  if w % 2 ^ nbits < 2 ^ 32 then (decode (BitVec.ofNat 32 (w % 2 ^ nbits))).toOption else none

/-- Layout I16: `OP`, a zero `RSV`, `IMM16` (R60). -/
def layoutI16 (op : Byte) (imm : Half) : Word := op ++ 0#8 ++ imm

/-- Layout I8: `OP`, a zero `RSV`, `IMM8` (R60). -/
def layoutI8 (op : Byte) (imm : Byte) : Word := op ++ 0#16 ++ imm

/-- Layout N: `OP`, a zero `RSV` (R60). -/
def layoutN (op : Byte) : Word := op ++ 0#24

/-- The word of a command (R60, R63). -/
def encode : Instr → Word
  | .load v => layoutI16 0x01#8 v
  | .byte b => layoutI8 0x02#8 b
  | .read => layoutN 0x03#8
  | .final => layoutN 0x04#8
  | .finv v => layoutI16 0x05#8 v
  | .tbl k => layoutI8 0x06#8 k

/-- The cause code of an illegal command (R140). -/
def IllegalCause.code : IllegalCause → Half
  | .illegalOpcode => 0x0001#16
  | .reservedNonzero => 0x0002#16

end Sys2Proof
end

