-- ==== Sys2Proof/Machine/State.lean ====
section
/-! DEFINITION. The state of the block (10_state.md R20, R24, R28, R31; 70_reset_and_hazards.md R162),
the host's side of its ports as plain data (R29, R170), and the state after reset. -/

namespace Sys2Proof.Machine

/-- A response: `rsp_data` and `rsp_err` (R24). -/
structure Response where
  data : Half
  err : Bool
deriving DecidableEq, Repr

/-- The bit-serial engine while it processes one byte: its iteration count, counted down, and its
partial register (R28(a)). -/
structure SerialEngine where
  /-- iterations still to do -/
  left : Nat
  /-- the partial register -/
  value : Half
deriving DecidableEq, Repr

/-- A command accepted but not yet complete (R28(b)). -/
structure Execution where
  word : Word
  /-- The bit-serial engine's hidden state, while the command is a BYTE (R28(a)). -/
  serial : Option SerialEngine
deriving DecidableEq, Repr

/-- The input levels at one rising edge of `clk` (R29), and the block's own free choice `finish`.
DESIGN CHOICE (log 2): latency is not architectural (R168), so whether the command in execution
completes at this edge is plain data that nothing constrains. -/
structure Edge where
  rst : Bool
  cmdValid : Bool
  cmdData : Word
  rspReady : Bool
  finish : Bool
deriving DecidableEq, Repr

/-- What comes next from outside: a rising edge of `clk` with its input levels, or a loss of power
(60_exceptions.md R154; log 6). -/
inductive HostEvent where
  | edge (e : Edge)
  | powerLoss
deriving DecidableEq, Repr

/-- The state of the machine. `crc`, `executing`, `pending` and `initialized` are the block's;
`schedule`, `accepted` and `delivered` are the model's own and hold the outside world (log 1, log 3);
`freeDraws` is the model's own and counts the free values drawn (log 6). -/
structure State where
  /-- the CRC register, the block's one data register (R20) -/
  crc : Half
  /-- the command accepted but not yet complete (R28(b)) -/
  executing : Option Execution
  /-- the response produced but not yet accepted by the host (R28(c)) -/
  pending : Option Response
  /-- a reset edge has happened since power-up (R162) -/
  initialized : Bool
  /-- what the host will do, edge by edge (R29, R170) -/
  schedule : List HostEvent
  /-- the command words transferred since the last reset, oldest first (R170) -/
  accepted : List Word
  /-- the responses transferred since the last reset, oldest first (R170) -/
  delivered : List Response
  /-- the values of `Config.unresetCrc` drawn so far (R154, R162) -/
  freeDraws : Nat
deriving DecidableEq, Repr

/-- The spec gives the block no condition that stops it: the arithmetic raises nothing (R143), there
is no trap mechanism (R146), and an illegal word is answered in band (R141, I8). So there is no fault
(log 12). -/
inductive Fault where
deriving DecidableEq, Repr

/-- Why a step has no meaning. -/
inductive Refusal where
  /-- A command that exec does not model yet. Raised by an arm of exec only. Safe: nothing is claimed. -/
  | notModelled (mnemonic : String)
  /-- An edge without reset before the first reset: the block's state is unspecified and a model must
  not give the run a meaning (R162, I5: `refuse`). Raised by the step. Safe: nothing is claimed. -/
  | beforeFirstReset
deriving DecidableEq, Repr

/-- The machine right after reset (R31, R161, R162): `crc` is 0x0000, nothing is in execution,
nothing is pending. DESIGN CHOICE (log 1, log 3, log 6): no host event is scheduled, the transcript
is empty and no free value has been drawn. -/
def State.reset : State where
  crc := Config.resetCrc
  executing := none
  pending := none
  initialized := true
  schedule := []
  accepted := []
  delivered := []
  freeDraws := 0

end Sys2Proof.Machine
end

