-- ==== Sys2Proof/Machine/Flags.lean ====
section
/-! DEFINITION. The block has no condition codes and no status flags in its state; its only flag is
`rsp_err`, a field of each response (10_state.md R25). These are the two kinds of response
(30_encoding.md R61). -/

namespace Sys2Proof.Machine

/-- The response of a command that executed: `rsp_err = 0` and its result (R24, R61). -/
def Response.result (d : Half) : Response := ⟨d, false⟩

/-- The response of a command without a result (R24, R61). -/
def Response.done : Response := Response.result 0x0000#16

/-- The response of an illegal word: `rsp_err = 1` and its cause code (R140, R141). -/
def Response.illegal (c : IllegalCause) : Response := ⟨c.code, true⟩

end Sys2Proof.Machine
end

