-- ==== Sys2Proof/Machine/Ops.lean ====
section
/-! DEFINITION. The named operations on State that the commands and the ports share: writing `crc`,
responding, raising IllegalCommand (60_exceptions.md R141), reset (70_reset_and_hazards.md R161) and
loss of power (60_exceptions.md R154); and the hidden bit-serial engine (10_state.md R28(a)). -/

namespace Sys2Proof.Machine

/-- `crc <- v` (R9, R20). -/
def State.setCrc (s : State) (v : Half) : State := { s with crc := v }

/-- `respond(d, e)`: the one response of the command becomes pending (R9, R24, R28(c)). -/
def State.respond (s : State) (r : Response) : State := { s with pending := some r }

/-- `raise IllegalCommand(code)`: `crc` unchanged, `respond(code, 1)`, nothing else (R141). Nothing is
saved, so there is no return from it: the next command executes normally (R146, R147). -/
def State.raiseIllegal (s : State) (c : IllegalCause) : State := s.respond (.illegal c)

/-- A rising edge with `rst = 1` (R161): `crc` takes its reset value, the command in execution and
the pending response are discarded. The transcript of the run restarts with the run (R170; log 3), and
the free values already drawn stay drawn (log 6). -/
def State.applyReset (s : State) : State :=
  { State.reset with schedule := s.schedule, freeDraws := s.freeDraws }

/-- Power is lost and comes back: nothing survives, and `crc` is unspecified until the next reset, a
free draw (R154, R162, I5; log 6). -/
def State.losePower (s : State) : State :=
  { State.reset with
    crc := Config.unresetCrc s.freeDraws
    initialized := false
    schedule := s.schedule
    freeDraws := s.freeDraws + 1 }

/-- The bit-serial engine takes up a byte: the byte is XORed in, eight iterations are to do (R80). -/
def SerialEngine.start (r : Half) (b : Byte) : SerialEngine := ⟨8, r ^^^ byteInHigh b⟩

/-- One iteration of the bit-serial engine (R80); an engine that is done holds its value. -/
def SerialEngine.tick (g : SerialEngine) : SerialEngine :=
  match g.left with
  | 0 => g
  | n + 1 => ⟨n, shiftXor g.value⟩

/-- A command word is taken up for execution; a BYTE starts the bit-serial engine (R28). -/
def Execution.start (crc : Half) (w : Word) : Execution where
  word := w
  serial := match decode w with
    | .ok (.byte b) => some (.start crc b)
    | _ => none

/-- One clock cycle of a command that does not complete yet. DESIGN CHOICE (log 7): the bit-serial
engine makes one iteration a cycle, which no command observes (R46). -/
def Execution.tick (ex : Execution) : Execution := { ex with serial := ex.serial.map SerialEngine.tick }

end Sys2Proof.Machine
end

