-- ==== Sys2Proof/Machine/Accumulate.lean ====
section
/-! DEFINITION. The commands on the register: LOAD, BYTE and READ (40_accumulate.md R85, R87, R88). -/

namespace Sys2Proof.Machine

/-- LOAD (R85): `crc <- IMM16`, `respond(0x0000, 0)`. -/
def execLoad (imm : Half) (s : State) : Host.Outcome State Fault Refusal :=
  .next ((s.setCrc imm).respond .done)

/-- BYTE (R87): `crc <- step(crc, IMM8)`, `respond(0x0000, 0)`. -/
def execByte (imm : Byte) (s : State) : Host.Outcome State Fault Refusal :=
  .next ((s.setCrc (byteStep s.crc imm)).respond .done)

/-- READ (R88): `respond(crc, 0)`. -/
def execRead (s : State) : Host.Outcome State Fault Refusal :=
  .next (s.respond (.result s.crc))

end Sys2Proof.Machine
end

