-- ==== Sys2Proof/Machine/Finalize.lean ====
section
/-! DEFINITION. The finalizing commands: FINAL and FINV (42_finalize.md R121, R122). -/

namespace Sys2Proof.Machine

/-- FINAL (R121): `respond(finalize(crc), 0)`, `crc` unchanged. -/
def execFinal (s : State) : Host.Outcome State Fault Refusal :=
  .next (s.respond (.result (finalize s.crc)))

/-- FINV (R122): `respond(finalize(IMM16), 0)`, `crc` neither read nor written. -/
def execFinv (imm : Half) (s : State) : Host.Outcome State Fault Refusal :=
  .next (s.respond (.result (finalize imm)))

end Sys2Proof.Machine
end

