-- ==== Sys2Proof/Machine/Table.lean ====
section
/-! DEFINITION. The table command: TBL (41_table.md R102). -/

namespace Sys2Proof.Machine

/-- TBL (R102): `respond(RomRead(IMM8), 0)`, `crc` unchanged. -/
def execTbl (imm : Byte) (s : State) : Host.Outcome State Fault Refusal :=
  .next (s.respond (.result (romRead imm)))

end Sys2Proof.Machine
end

