-- ==== Sys2Proof/Machine/Dispatch.lean ====
section
/-! DEFINITION. The meaning of each command, one arm per constructor (30_encoding.md R67). -/

namespace Sys2Proof.Machine

def exec (i : Instr) (s : State) : Host.Outcome State Fault Refusal :=
  match i with
  | .load imm => Sys2Proof.Machine.execLoad imm s
  | .byte imm => Sys2Proof.Machine.execByte imm s
  | .read => Sys2Proof.Machine.execRead s
  | .final => Sys2Proof.Machine.execFinal s
  | .finv imm => Sys2Proof.Machine.execFinv imm s
  | .tbl imm => Sys2Proof.Machine.execTbl imm s

end Sys2Proof.Machine
end

