-- ==== Sys2Proof/Machine/Port.lean ====
section
/-! DEFINITION. The ports of the block: what one rising edge of `clk` does (10_state.md R29, R30;
60_exceptions.md R145; 70_reset_and_hazards.md R160 to R162). -/

namespace Sys2Proof.Machine

/-- The levels of the output ports (R29). `rsp_data` and `rsp_err` are don't-care while
`rsp_valid = 0` (R31), so the response port is an Option. -/
structure Outputs where
  cmdReady : Bool
  rsp : Option Response
deriving DecidableEq, Repr

/-- The block can accept a command: none is in execution and no response is pending (R30 clause 4;
`rst` is looked at first, by `edgeStep` and `State.outputs`). -/
def State.cmdReady (s : State) : Bool := s.executing.isNone && s.pending.isNone

/-- The output levels, given the level of `rst`. While `rst = 1` both are 0 (R161). Before the first
reset they may hold any value (R162), and the model gives none. -/
def State.outputs (s : State) (rst : Bool) : Option Outputs :=
  if rst then some ⟨false, none⟩
  else if s.initialized then some ⟨s.cmdReady, s.pending⟩
  else none

/-- The command word `w` executes: a legal word's command has its meaning, an illegal word raises
IllegalCommand (R64, R67, R141). -/
def runWord (w : Word) (s : State) : Host.Outcome State Fault Refusal :=
  match decode w with
  | .ok i => exec i s
  | .error c => .next (s.raiseIllegal c)

/-- The command `w` transfers (R30 clause 1). It completes at this edge or stays in execution; both
are a latency of at least one cycle (R168; log 2). -/
def acceptWord (finish : Bool) (w : Word) (s : State) : Host.Outcome State Fault Refusal :=
  if finish then runWord w { s with accepted := s.accepted ++ [w] }
  else .next { s with accepted := s.accepted ++ [w], executing := some (.start s.crc w) }

/-- The command in execution completes at this edge, or does not yet (R28(b), R46). -/
def continueExecution (finish : Bool) (ex : Execution) (s : State) : Host.Outcome State Fault Refusal :=
  if finish then runWord ex.word { s with executing := none }
  else .next { s with executing := some ex.tick }

/-- A pending response transfers if the host is ready, and is held stable otherwise (R30 clauses 2
and 3). -/
def offerResponse (ready : Bool) (r : Response) (s : State) : State :=
  if ready then { s with pending := none, delivered := s.delivered ++ [r] } else s

/-- One rising edge of `clk` with input levels `e`. Reset is looked at first and wins (R145, R161);
before the first reset nothing else has a meaning (R162); a command in execution or a pending response
keeps `cmd_ready` at 0, so no command transfers (R30 clause 4); an idle block accepts what the host
presents and ignores `cmd_data` otherwise (R30 clauses 1 and 5). -/
def edgeStep (e : Edge) (s : State) : Host.Outcome State Fault Refusal :=
  if e.rst then .next s.applyReset
  else if s.initialized then
    match s.executing, s.pending with
    | some ex, _ => continueExecution e.finish ex s
    | none, some r => .next (offerResponse e.rspReady r s)
    | none, none => if e.cmdValid then acceptWord e.finish e.cmdData s else .next s
  else .refused .beforeFirstReset

/-- A rising edge at which the host drives nothing; a command in execution completes (R49). -/
def Edge.idle : Edge := ⟨false, false, 0#32, false, true⟩

/-- A rising edge at which the host presents `w` and the block, if it accepts it, completes it. -/
def Edge.offer (w : Word) : Edge := ⟨false, true, w, false, true⟩

/-- A rising edge at which the host accepts a response. -/
def Edge.take : Edge := ⟨false, false, 0#32, true, true⟩

/-- A rising edge with `rst = 1` (R160). -/
def Edge.resetting : Edge := ⟨true, false, 0#32, false, true⟩

end Sys2Proof.Machine
end

