-- ==== Sys2Proof/Machine/Step.lean ====
section
/-! DEFINITION. One step of the machine: the next event of the schedule (10_state.md R29, R30). -/

namespace Sys2Proof.Machine

/-- One step is one rising edge of `clk`, or a loss of power. DESIGN CHOICE (log 4): with no event
scheduled the edge is one at which the host drives nothing and a command in execution completes. -/
def step (s : State) : Host.Outcome State Fault Refusal :=
  match s.schedule with
  | [] => edgeStep .idle s
  | .edge e :: rest => edgeStep e { s with schedule := rest }
  | .powerLoss :: rest => .next (State.losePower { s with schedule := rest })

/-- The command word `w` presented to the block, free to accept it, at the next rising edge, with the
choice that it completes there (log 10). -/
def State.withFetchWord (s : State) (nbits w : Nat) : State :=
  { s with
    executing := none
    pending := none
    initialized := true
    schedule := .edge (.offer (BitVec.ofNat 32 (w % 2 ^ nbits))) :: s.schedule }

end Sys2Proof.Machine
end

