-- ==== Sys2Proof/Machine/Assembler.lean ====
section
/-! DEFINITION. The assembler: lines to command words (30_encoding.md R68), the expansions of the
pseudo-instructions (R69), and the reading of source text. The spec gives the forms and leaves the
letters of the text open in places; what the model reads there is DESIGN CHOICE (log 11). -/

namespace Sys2Proof.Asm

/-- Why a line is an assembly error. -/
inductive AsmError where
  /-- The text is no line of R68 or R69. -/
  | notALine
  /-- A literal does not fit its field (R68: an error and not a truncation). -/
  | doesNotFit
deriving DecidableEq, Repr

/-- The value of a literal: a character stands for its code (R68). -/
def Literal.value : Literal → Nat
  | .num n => n
  | .chr c => c.toNat

/-- The literal in an 8-bit field. -/
def Literal.imm8 (l : Literal) : Byte := BitVec.ofNat 8 l.value

/-- The literal in a 16-bit field. -/
def Literal.imm16 (l : Literal) : Half := BitVec.ofNat 16 l.value

/-- The words of a line whose literals fit (R68, R69). -/
def Line.words : Line → List Word
  | .blank => []
  | .load v => [encode (.load v.imm16)]
  | .byte b => [encode (.byte b.imm8)]
  | .read => [encode .read]
  | .final => [encode .final]
  | .finv v => [encode (.finv v.imm16)]
  | .tbl k => [encode (.tbl k.imm8)]
  | .word w => [BitVec.ofNat 32 w.value]
  | .clr => [encode (.load 0x0000#16)]
  | .bytes bs => bs.map fun b => encode (.byte b.imm8)
  | .str text => text.map fun c => encode (.byte (Literal.chr c).imm8)
  | .fin v => [encode (.finv v.imm16)]
  | .save => [encode .read]
  | .restore v => [encode (.load v.imm16)]

/-- A line assembles to its words, or to an error if a literal does not fit (R68). -/
def assembleLine (l : Line) : Except AsmError (List Word) :=
  if l.wellFormed then .ok l.words else .error .doesNotFit

/-- A token of a line. -/
inductive Token where
  | name (cs : List Char)
  | chr (c : Char)
  | text (cs : List Char)
  | comma
deriving DecidableEq, Repr

/-- Where the reading of a line stands. -/
inductive TokenState where
  | gap
  | inName (rev : List Char)
  | chrOpen
  | chrClose (c : Char)
  | inText (rev : List Char)
deriving DecidableEq, Repr

def singleQuote : Char := Char.ofNat 39
def doubleQuote : Char := Char.ofNat 34
def isBlank (c : Char) : Bool := c = ' ' || c = Char.ofNat 9 || c = Char.ofNat 13

/-- The tokens of a line; `;` outside a literal begins a comment (R68). -/
def tokens : TokenState → List Char → Option (List Token)
  | .gap, [] => some []
  | .gap, c :: cs =>
    if c = ';' then some []
    else if isBlank c then tokens .gap cs
    else if c = ',' then (Token.comma :: ·) <$> tokens .gap cs
    else if c = singleQuote then tokens .chrOpen cs
    else if c = doubleQuote then tokens (.inText []) cs
    else tokens (.inName [c]) cs
  | .inName rev, [] => some [.name rev.reverse]
  | .inName rev, c :: cs =>
    if c = ';' then some [.name rev.reverse]
    else if isBlank c then (Token.name rev.reverse :: ·) <$> tokens .gap cs
    else if c = ',' then (fun ts => Token.name rev.reverse :: .comma :: ts) <$> tokens .gap cs
    else tokens (.inName (c :: rev)) cs
  | .chrOpen, [] => none
  | .chrOpen, c :: cs => tokens (.chrClose c) cs
  | .chrClose _, [] => none
  | .chrClose c, q :: cs => if q = singleQuote then (Token.chr c :: ·) <$> tokens .gap cs else none
  | .inText _, [] => none
  | .inText rev, c :: cs =>
    if c = doubleQuote then (Token.text rev.reverse :: ·) <$> tokens .gap cs
    else tokens (.inText (c :: rev)) cs

/-- The value of a digit in the given base, 10 or 16. -/
def digit (base : Nat) (c : Char) : Option Nat :=
  let n := c.toNat
  let v := if 48 ≤ n ∧ n ≤ 57 then n - 48
    else if 65 ≤ n ∧ n ≤ 70 then n - 55
    else if 97 ≤ n ∧ n ≤ 102 then n - 87
    else base
  if v < base then some v else none

/-- The value of a run of digits, most significant first. -/
def digits (base : Nat) : Nat → List Char → Option Nat
  | acc, [] => some acc
  | acc, c :: cs => (digit base c).bind fun d => digits base (acc * base + d) cs

/-- A numeric literal: `0x` and hexadecimal digits, or decimal digits (R68). -/
def number : List Char → Option Nat
  | '0' :: 'x' :: c :: cs => digits 16 0 (c :: cs)
  | c :: cs => digits 10 0 (c :: cs)
  | [] => none

/-- A literal. -/
def literal : Token → Option Literal
  | .name cs => Literal.num <$> number cs
  | .chr c => some (.chr c)
  | _ => none

/-- Literals with commas between them. -/
def literals : List Token → Option (List Literal)
  | [] => some []
  | [t] => (fun l => [l]) <$> literal t
  | t :: .comma :: u :: ts => (literal t).bind fun l => (l :: ·) <$> literals (u :: ts)
  | _ => none

/-- The line of a mnemonic and what follows it (R68, R69). -/
def lineOf (name : List Char) (args : List Token) : Option Line :=
  if name = "READ".toList ∧ args = [] then some .read
  else if name = "FINAL".toList ∧ args = [] then some .final
  else if name = "CLR".toList ∧ args = [] then some .clr
  else if name = "SAVE".toList ∧ args = [] then some .save
  else if name = "BYTES".toList then Line.bytes <$> literals args
  else match args with
    | [.text cs] => if name = "STR".toList then some (.str cs) else none
    | [t] => (literal t).bind fun l =>
      if name = "LOAD".toList then some (.load l)
      else if name = "BYTE".toList then some (.byte l)
      else if name = "FINV".toList then some (.finv l)
      else if name = "TBL".toList then some (.tbl l)
      else if name = ".word".toList then some (.word l)
      else if name = "FIN".toList then some (.fin l)
      else if name = "RESTORE".toList then some (.restore l)
      else none
    | _ => none

/-- The reading of one line of text. DESIGN CHOICE (log 11): R68 is silent on a line without a command,
empty or with a comment only, and the model reads it as a line of no words. -/
def readLine (text : List Char) : Option Line :=
  (tokens .gap text).bind fun
    | [] => some .blank
    | .name n :: args => lineOf n args
    | _ => none

/-- One line of text to its words (R68). -/
def assembleText (text : List Char) : Except AsmError (List Word) :=
  match readLine text with
  | some l => assembleLine l
  | none => .error .notALine

/-- The lines of a source, one after the other (R68: one command per line). DESIGN CHOICE (log 11): a
source with a line in error has no words, and its error is that of the first such line. -/
def assembleLines : List (List Char) → Except AsmError (List Word)
  | [] => .ok []
  | t :: ts =>
    match assembleText t, assembleLines ts with
    | .ok ws, .ok rest => .ok (ws ++ rest)
    | .error e, _ => .error e
    | _, .error e => .error e

end Sys2Proof.Asm
end

