-- ==== Sys2Proof/Machine/Arch.lean ====
section
/-! DEFINITION. The architectural step of 30_encoding.md R67, written from its table, and the run of a
list of words (70_reset_and_hazards.md R170). It is the reference that claims hold the machine
against; the machine does not call it. -/

namespace Sys2Proof.Machine

/-- `Step(crc, w)` (R67). -/
def archStep (crc : Half) (w : Word) : Half × Response :=
  match decode w with
  | .ok (.load v) => (v, ⟨0x0000#16, false⟩)
  | .ok (.byte b) => (byteStep crc b, ⟨0x0000#16, false⟩)
  | .ok .read => (crc, ⟨crc, false⟩)
  | .ok .final => (crc, ⟨~~~crc, false⟩)
  | .ok (.finv v) => (crc, ⟨~~~v, false⟩)
  | .ok (.tbl k) => (crc, ⟨romRead k, false⟩)
  | .error c => (crc, ⟨c.code, true⟩)

/-- The final `crc` and the responses, in order, of a list of words (R47, R170). -/
def archRun : Half → List Word → Half × List Response
  | crc, [] => (crc, [])
  | crc, w :: ws =>
    let first := archStep crc w
    let rest := archRun first.1 ws
    (rest.1, first.2 :: rest.2)

end Sys2Proof.Machine
end

