-- ==== Sys2Proof/Machine/HostSequences.lean ====
section
/-! DEFINITION. What the host sends: the command sequences of the source's three operations
(30_encoding.md R70), and a host that sends words one by one and takes each response (R170). -/

namespace Sys2Proof.Machine

/-- The BYTE commands of a byte sequence, in order (R69 `BYTES`). -/
def byteWords (bs : List Byte) : List Word := bs.map fun b => encode (.byte b)

/-- `crc_compute(initial, data)` (R70). -/
def crcComputeWords (initial : Half) (data : List Byte) : List Word :=
  encode (.load initial) :: (byteWords data ++ [encode .read])

/-- `crc_compute_finalize(data)` (R70). -/
def crcComputeFinalizeWords (data : List Byte) : List Word :=
  encode (.load 0x0000#16) :: (byteWords data ++ [encode .final])

/-- `crc_finalize(value)` (R70). -/
def crcFinalizeWords (value : Half) : List Word := [encode (.finv value)]

/-- A host that presents each word and then accepts its response. -/
def runSchedule (ws : List Word) : List HostEvent :=
  ws.flatMap fun w => [.edge (.offer w), .edge .take]

end Sys2Proof.Machine
end

