-- ==== Sys2Proof/Safety.lean ====
section
/-! DEFINITION. The terms that claims about runs use: what a legal word is, the invariants that every
step keeps, and the latency of a command. -/

namespace Sys2Proof

/-- A legal word: a defined opcode with every `RSV` bit zero (30_encoding.md R65(a)). -/
def LegalWord (w : Word) : Prop := ∃ i, decode w = .ok i

/-- An illegal word with the given cause (R65(b), R65(c)). -/
def IllegalWord (c : IllegalCause) (w : Word) : Prop := decode w = .error c

namespace Machine

/-- The block is idle after a reset: it can accept a command (10_state.md R30 clause 4). -/
def State.Ready (s : State) : Prop :=
  s.initialized = true ∧ s.executing = none ∧ s.pending = none

/-- At most one command or response is in the block: no response is pending while a command is in
execution (R28(c), R30 clause 4). -/
def State.OneInFlight (s : State) : Prop := s.executing = none ∨ s.pending = none

/-- The accepted words that have completed: all, or all but the one in execution. -/
def State.completed (s : State) : List Word :=
  match s.executing with
  | none => s.accepted
  | some _ => s.accepted.dropLast

/-- The observation of the run so far agrees with the architectural step (20_memory.md R47,
70_reset_and_hazards.md R170): the command in execution is the last one accepted, and `crc` and the
responses, delivered or pending, are those of the completed words run in order from reset. -/
def State.TranscriptAgrees (s : State) : Prop :=
  s.initialized = true →
    s.OneInFlight ∧
    (∀ ex, s.executing = some ex → s.accepted.getLast? = some ex.word) ∧
    archRun Config.resetCrc s.completed = (s.crc, s.delivered ++ s.pending.toList)

/-- The hidden bit-serial engine agrees with the byte step (10_state.md R28(a), 20_memory.md R46): it
is there exactly while a BYTE is in execution, at most eight iterations are left, and its remaining
iterations lead to the value that the BYTE writes. -/
def State.SerialAgrees (s : State) : Prop :=
  ∀ ex, s.executing = some ex →
    match decode ex.word with
    | .ok (.byte b) => ∃ g, ex.serial = some g ∧ g.left ≤ 8 ∧ shiftXorN g.left g.value = byteStep s.crc b
    | _ => ex.serial = none

/-- `n` steps of the machine, by the host's own interface. -/
abbrev steps (n : Nat) (s : State) : Host.Outcome State Fault Refusal := Host.Core.run Sys2Proof.core n s

/-- The latency of a word: `LAT_BYTE` for a BYTE, `LAT_OTHER` for every other command, illegal words
among them (R168). -/
def latencyOf (l : Config.Latency) (w : Word) : Nat :=
  match decode w with
  | .ok (.byte _) => l.latByte
  | _ => l.latOther

/-- The edges of one execution in a build of latency `n`: the host presents `w` at the first of `n`
edges, `rst` stays 0, and the block completes at the last and not before (R168). -/
def ExecutionEdges (n : Nat) (w : Word) (es : List Edge) : Prop :=
  es.length = n ∧
  (∀ e, es.head? = some e → e.cmdValid = true ∧ e.cmdData = w) ∧
  (∀ e ∈ es, e.rst = false) ∧
  (∀ e ∈ es.dropLast, e.finish = false) ∧
  (∀ e, es.getLast? = some e → e.finish = true)

/-- The carry-less product over GF(2) of the polynomial whose coefficients are the bits `q`, highest
first, with the polynomial `g`. -/
def carrylessMul (q : List Bool) (g : Nat) : Nat :=
  q.foldl (fun acc bit => (2 * acc) ^^^ (if bit then g else 0)) 0

/-- The number whose base-256 digits are the bytes, the first the most significant: the message as a
polynomial, MSB first (R41(a), R41(b)). -/
def messageNat (bs : List Byte) : Nat := bs.foldl (fun acc b => 256 * acc + b.toNat) 0

end Machine

end Sys2Proof
end

