-- ==== Sys2Proof/Certificates/Slice0/Obligations.lean ====
section
/-! DEFINITION. The statements for the provers. -/

open Sys2Proof Sys2Proof.Machine

/-! ### Encoding -/

/-- Decoding the word of a well-formed command gives the command back, with every operand at every
value (30_encoding.md R60, R62, R64). -/
def Obligations.DecodeInvertsEncode : Prop :=
  ∀ i : Instr, i.wellFormed = true → decode (encode i) = .ok i

/-- A word has one meaning: a word that decodes to a command is the word of that command, so no bit of
a legal word is ignored (R60, R64). -/
def Obligations.EncodeInvertsDecode : Prop :=
  ∀ (w : Word) (i : Instr), decode w = .ok i → encode i = w

/-- The decoder is R64, case by case, with the opcode looked at before the reserved bits. -/
def Obligations.DecoderFollowsOpcodeMap : Prop :=
  ∀ w : Word,
    (w.extractLsb' 24 8 = 0x01#8 → decode w =
      if w.extractLsb' 16 8 ≠ 0#8 then .error .reservedNonzero else .ok (.load (w.extractLsb' 0 16))) ∧
    (w.extractLsb' 24 8 = 0x02#8 → decode w =
      if w.extractLsb' 8 16 ≠ 0#16 then .error .reservedNonzero else .ok (.byte (w.extractLsb' 0 8))) ∧
    (w.extractLsb' 24 8 = 0x03#8 → decode w =
      if w.extractLsb' 0 24 ≠ 0#24 then .error .reservedNonzero else .ok .read) ∧
    (w.extractLsb' 24 8 = 0x04#8 → decode w =
      if w.extractLsb' 0 24 ≠ 0#24 then .error .reservedNonzero else .ok .final) ∧
    (w.extractLsb' 24 8 = 0x05#8 → decode w =
      if w.extractLsb' 16 8 ≠ 0#8 then .error .reservedNonzero else .ok (.finv (w.extractLsb' 0 16))) ∧
    (w.extractLsb' 24 8 = 0x06#8 → decode w =
      if w.extractLsb' 8 16 ≠ 0#16 then .error .reservedNonzero else .ok (.tbl (w.extractLsb' 0 8))) ∧
    (w.extractLsb' 24 8 = 0x00#8 ∨ 0x07#8 ≤ w.extractLsb' 24 8 → decode w = .error .illegalOpcode) ∧
    IllegalCause.illegalOpcode.code = 0x0001#16 ∧ IllegalCause.reservedNonzero.code = 0x0002#16

/-- How many words there are of each kind (R65), and what executing an illegal one does: it changes no
state of the block, and its response carries the cause code with `rsp_err = 1`. -/
def Obligations.WordsOfEachKind : Prop :=
  Nat.card { w : Word // ∃ v, decode w = .ok (.load v) } = 2 ^ 16 ∧
  Nat.card { w : Word // ∃ v, decode w = .ok (.finv v) } = 2 ^ 16 ∧
  Nat.card { w : Word // ∃ b, decode w = .ok (.byte b) } = 2 ^ 8 ∧
  Nat.card { w : Word // ∃ k, decode w = .ok (.tbl k) } = 2 ^ 8 ∧
  Nat.card { w : Word // decode w = .ok .read } = 1 ∧
  Nat.card { w : Word // decode w = .ok .final } = 1 ∧
  Nat.card { w : Word // LegalWord w } = 131586 ∧
  Nat.card { w : Word // IllegalWord .illegalOpcode w } = 250 * 2 ^ 24 ∧
  Nat.card { w : Word // IllegalWord .reservedNonzero w } = 100531710 ∧
  ∀ (c : IllegalCause) (w : Word) (s : State), IllegalWord c w →
    runWord w s = .next { s with pending := some ⟨c.code, true⟩ }

/-- The six example words of R68 decode to the commands they stand for. -/
def Obligations.ExampleWordsDecode : Prop :=
  decode 0x01001234#32 = .ok (.load 0x1234#16) ∧
  decode 0x02000031#32 = .ok (.byte 0x31#8) ∧
  decode 0x03000000#32 = .ok .read ∧
  decode 0x04000000#32 = .ok .final ∧
  decode 0x05001234#32 = .ok (.finv 0x1234#16) ∧
  decode 0x06000080#32 = .ok (.tbl 0x80#8)

/-! ### The step -/

/-- A step runs the command that the accepted word decodes to: at the edge at which the word transfers,
if the block completes it there, and at a later edge for a command in execution (R30, R46). The fields
`accepted` and `schedule` are the model's own (log 1, log 3). -/
def Obligations.StepRunsDecodedCommand : Prop :=
  (∀ (s : State) (e : Edge) (rest : List HostEvent) (i : Instr),
    s.Ready → s.schedule = .edge e :: rest →
    e.rst = false → e.cmdValid = true → e.finish = true → decode e.cmdData = .ok i →
    step s = exec i { s with schedule := rest, accepted := s.accepted ++ [e.cmdData] }) ∧
  (∀ (s : State) (ex : Execution) (e : Edge) (rest : List HostEvent) (i : Instr),
    s.initialized = true → s.executing = some ex → s.schedule = .edge e :: rest →
    e.rst = false → e.finish = true → decode ex.word = .ok i →
    step s = exec i { s with schedule := rest, executing := none })

/-- Accepting a word, legal or not, and completing it does the architectural step of R67 and nothing
else: `crc` and the response are those of `Step(crc, w)`. -/
def Obligations.CommandDoesArchitecturalStep : Prop :=
  (∀ (s : State) (e : Edge) (rest : List HostEvent),
    s.Ready → s.schedule = .edge e :: rest →
    e.rst = false → e.cmdValid = true → e.finish = true →
    step s = .next { s with
      crc := (archStep s.crc e.cmdData).1
      pending := some (archStep s.crc e.cmdData).2
      schedule := rest
      accepted := s.accepted ++ [e.cmdData] }) ∧
  (∀ (s : State) (ex : Execution) (e : Edge) (rest : List HostEvent),
    s.initialized = true → s.executing = some ex → s.schedule = .edge e :: rest →
    e.rst = false → e.finish = true →
    step s = .next { s with
      crc := (archStep s.crc ex.word).1
      pending := some (archStep s.crc ex.word).2
      executing := none
      schedule := rest })

/-- The table of the architectural step (R67), row by row, for every word, every state and either
engine: the next `crc` and the one response, and nothing else of the state changes. -/
def Obligations.ExecutedWordFollowsStepTable : Prop :=
  ∀ (eng : Config.Engine) (w : Word) (s : State),
    runWord w s = .next
      (match decode w with
      | .ok (.load v) => { s with crc := v, pending := some ⟨0x0000#16, false⟩ }
      | .ok (.byte b) => { s with crc := engineStep eng s.crc b, pending := some ⟨0x0000#16, false⟩ }
      | .ok .read => { s with pending := some ⟨s.crc, false⟩ }
      | .ok .final => { s with pending := some ⟨~~~s.crc, false⟩ }
      | .ok (.finv v) => { s with pending := some ⟨~~~v, false⟩ }
      | .ok (.tbl k) => { s with pending := some ⟨romRead k, false⟩ }
      | .error .illegalOpcode => { s with pending := some ⟨0x0001#16, true⟩ }
      | .error .reservedNonzero => { s with pending := some ⟨0x0002#16, true⟩ })

/-- IllegalCommand (R140, R141): `crc` unchanged, the response is the cause code with `rsp_err = 1`,
and once the host has taken it nothing of the block records that it happened: it is idle as before.
The fields `accepted`, `delivered` and `schedule` are the model's own (log 1, log 3). -/
def Obligations.IllegalCommandAnsweredInBand : Prop :=
  IllegalCause.illegalOpcode.code = 0x0001#16 ∧ IllegalCause.reservedNonzero.code = 0x0002#16 ∧
  ∀ (s : State) (e e' : Edge) (rest : List HostEvent) (c : IllegalCause),
    s.Ready → s.schedule = .edge e :: .edge e' :: rest → IllegalWord c e.cmdData →
    e.rst = false → e.cmdValid = true → e.finish = true → e'.rst = false → e'.rspReady = true →
    step s = .next { s with
      pending := some ⟨c.code, true⟩
      schedule := .edge e' :: rest
      accepted := s.accepted ++ [e.cmdData] } ∧
    steps 2 s = .next { s with
      schedule := rest
      accepted := s.accepted ++ [e.cmdData]
      delivered := s.delivered ++ [⟨c.code, true⟩] }

/-- After the first reset no step of the block faults or is refused, whatever the host drives. -/
def Obligations.StepAnswersAfterReset : Prop :=
  ∀ s : State, s.initialized = true → ∃ t, step s = .next t

/-- A run starts from the reset state; before the first reset an edge without reset has no meaning and
the outputs have no value (R162; the flag `initialized` is the model's way to say it, log 5). That a
reset keeps the count of free values drawn is the model's own (log 6). -/
def Obligations.NothingRunsBeforeFirstReset : Prop :=
  (State.reset.crc = 0x0000#16 ∧ State.reset.executing = none ∧ State.reset.pending = none) ∧
  (∀ s : State, s.initialized = false → s.outputs false = none) ∧
  (∀ (s : State) (e : Edge) (rest : List HostEvent),
    s.initialized = false → s.schedule = .edge e :: rest → e.rst = false →
    step s = .refused .beforeFirstReset) ∧
  (∀ (s : State) (e : Edge) (rest : List HostEvent),
    s.initialized = false → s.schedule = .edge e :: rest → e.rst = true →
    step s = .next { State.reset with schedule := rest, freeDraws := s.freeDraws })

/-- The reset values (R31): `crc`, nothing in execution, nothing pending, and the output ports while
`rst` is 1 and at the first edge after it falls; before the first reset the outputs have no value
(the model's way to say that the state is unspecified there, log 5). -/
def Obligations.ResetStateValues : Prop :=
  State.reset.crc = 0x0000#16 ∧ State.reset.executing = none ∧ State.reset.pending = none ∧
  State.reset.outputs false = some ⟨true, none⟩ ∧
  (∀ s : State, s.outputs true = some ⟨false, none⟩) ∧
  (∀ s : State, s.initialized = false → s.outputs false = none)

/-- A rising edge with `rst = 1` (R161, R145): in every state, and whatever else the host drives at
that edge, `crc` takes its reset value, the command in execution and the pending response are
discarded, `cmd_ready` and `rsp_valid` are 0 while `rst` is 1, and the block is able to accept a
command at the first edge at which `rst` is 0 again. -/
def Obligations.ResetEdgeRestarts : Prop :=
  ∀ (s : State) (e : Edge) (rest : List HostEvent),
    s.schedule = .edge e :: rest → e.rst = true →
    s.outputs e.rst = some ⟨false, none⟩ ∧
    ∃ t, step s = .next t ∧ t.crc = 0x0000#16 ∧ t.executing = none ∧ t.pending = none ∧
      t.initialized = true ∧ t.schedule = rest ∧
      t.outputs true = some ⟨false, none⟩ ∧ t.outputs false = some ⟨true, none⟩

/-- Loss of power (R154): nothing of the block survives, so two blocks that differ in any of it are the
same after it; `crc` is unspecified, a free draw that no rule constrains; and until a reset nothing
runs. The event, the counter of draws and the flag are the model's way to say it (log 5, log 6). -/
def Obligations.PowerLossNeedsReset : Prop :=
  (∀ (s s' : State) (rest : List HostEvent),
    s.schedule = .powerLoss :: rest → s'.schedule = .powerLoss :: rest → s.freeDraws = s'.freeDraws →
    step s = step s') ∧
  ∀ (s : State) (rest : List HostEvent), s.schedule = .powerLoss :: rest →
    ∃ t, step s = .next t ∧ t.initialized = false ∧ t.executing = none ∧ t.pending = none ∧
      t.crc = Config.unresetCrc s.freeDraws ∧ t.freeDraws = s.freeDraws + 1 ∧ t.schedule = rest ∧
      (∀ (e : Edge) (more : List HostEvent), rest = .edge e :: more →
        (e.rst = false → step t = .refused .beforeFirstReset) ∧
        (e.rst = true → step t = .next { State.reset with schedule := more, freeDraws := t.freeDraws }))

/-! ### The ports -/

/-- A command transfers at an edge with `rst = 0` exactly when `cmd_valid` and `cmd_ready` are 1, and
it is the word on `cmd_data` (R30 clauses 1, 4, 5). `accepted` is the model's record of it (log 3). -/
def Obligations.CommandTransfersWhenReady : Prop :=
  ∀ (s : State) (e : Edge) (rest : List HostEvent),
    s.initialized = true → s.schedule = .edge e :: rest → e.rst = false →
    ∃ t o, step s = .next t ∧ s.outputs false = some o ∧
      (o.cmdReady = true ↔ s.executing = none ∧ s.pending = none) ∧
      t.accepted = if e.cmdValid && o.cmdReady then s.accepted ++ [e.cmdData] else s.accepted

/-- A response transfers at an edge with `rst = 0` exactly when `rsp_valid` and `rsp_ready` are 1; it is
the response on the port; until it transfers it is held stable, and no response appears without a
command (R30 clauses 2, 3, 6). `delivered` is the model's record of it (log 3). -/
def Obligations.ResponseHeldUntilTaken : Prop :=
  ∀ (s : State) (e : Edge) (rest : List HostEvent),
    s.initialized = true → s.OneInFlight → s.schedule = .edge e :: rest → e.rst = false →
    ∃ t, step s = .next t ∧
      (∀ r, s.pending = some r → e.rspReady = true →
        t.delivered = s.delivered ++ [r] ∧ t.pending = none) ∧
      (∀ r, s.pending = some r → e.rspReady = false →
        t.delivered = s.delivered ∧ t.pending = some r ∧ t.outputs false = s.outputs false) ∧
      (s.pending = none → t.delivered = s.delivered) ∧
      (s.pending = none → s.executing = none → e.cmdValid = false → t.pending = none)

/-- `cmd_data` is ignored while `cmd_valid = 0` (R30 clause 5). -/
def Obligations.CmdDataIgnoredWhenInvalid : Prop :=
  ∀ (s : State) (e : Edge) (d : Word) (rest : List HostEvent), e.cmdValid = false →
    step { s with schedule := .edge e :: rest } =
      step { s with schedule := .edge { e with cmdData := d } :: rest }

/-- Nothing changes by itself: an idle block at an edge at which the host presents nothing keeps all of
its state, and so does a step with no event scheduled (R30 clause 6, R154; log 4). -/
def Obligations.IdleBlockHoldsState : Prop :=
  (∀ (s : State) (e : Edge) (rest : List HostEvent),
    s.Ready → s.schedule = .edge e :: rest → e.rst = false → e.cmdValid = false →
    step s = .next { s with schedule := rest }) ∧
  (∀ s : State, s.Ready → s.schedule = [] → step s = .next s)

/-- A command held on the port while a response is pending waits, however long the host takes, and
transfers at the first edge after the response has gone (R30 clauses 1 to 4). -/
def Obligations.OfferWaitsForResponse : Prop :=
  ∀ (s : State) (r : Response) (w : Word) (waits : List Edge) (take accept : Edge) (rest : List HostEvent),
    s.initialized = true → s.executing = none → s.pending = some r →
    s.schedule = waits.map .edge ++ .edge take :: .edge accept :: rest →
    (∀ e ∈ waits, e.rst = false ∧ e.rspReady = false ∧ e.cmdValid = true ∧ e.cmdData = w) →
    take.rst = false → take.rspReady = true → take.cmdValid = true → take.cmdData = w →
    accept.rst = false → accept.cmdValid = true → accept.cmdData = w → accept.finish = true →
    steps (waits.length + 1) s = .next { s with
      pending := none
      schedule := .edge accept :: rest
      delivered := s.delivered ++ [r] } ∧
    steps (waits.length + 2) s = .next { s with
      crc := (archStep s.crc w).1
      pending := some (archStep s.crc w).2
      schedule := rest
      accepted := s.accepted ++ [w]
      delivered := s.delivered ++ [r] }

/-- In a build with latencies `l`, the response to a word becomes valid that many edges after the word
is presented to an idle block, and not before, with the `crc` and response of the architectural step
(R168, R49). That the completing edge is chosen by the schedule is the model's choice (log 2). -/
def Obligations.ResponseAfterLatency : Prop :=
  ∀ (l : Config.Latency) (s : State) (w : Word) (es : List Edge) (rest : List HostEvent),
    l.legal → s.Ready → ExecutionEdges (latencyOf l w) w es → s.schedule = es.map .edge ++ rest →
    steps (latencyOf l w) s = .next { s with
      crc := (archStep s.crc w).1
      pending := some (archStep s.crc w).2
      schedule := rest
      accepted := s.accepted ++ [w] } ∧
    ∀ k, 1 ≤ k → k < latencyOf l w →
      ∃ t, steps k s = .next t ∧ t.outputs false = some ⟨false, none⟩ ∧ t.crc = s.crc

/-! ### The commands -/

/-- LOAD (R85): its effect, its encoding, its only exception, its corner cases (a finalised value loaded
to continue a chain gives a different result) and its example. -/
def Obligations.LoadSetsCrc : Prop :=
  (∀ (v : Half) (s : State),
    exec (.load v) s = .next { s with crc := v, pending := some ⟨0x0000#16, false⟩ }) ∧
  (∀ (w : Word) (v : Half), decode w = .ok (.load v) ↔
    w &&& 0xFFFF0000#32 = 0x01000000#32 ∧ v = w.extractLsb' 0 16) ∧
  (∀ (w : Word) (s : State), w.extractLsb' 24 8 = 0x01#8 → w.extractLsb' 16 8 ≠ 0#8 →
    runWord w s = .next { s with pending := some ⟨0x0002#16, true⟩ }) ∧
  (∀ s : State, ∃ t, exec (.load s.crc) s = .next t ∧ t.crc = s.crc) ∧
  (∀ (r : Half) (bs : List Byte), compute (finalize r) bs ≠ compute r bs) ∧
  (∀ s : State, s.crc = 0xBEEF#16 →
    runWord 0x01001234#32 s = .next { s with crc := 0x1234#16, pending := some ⟨0x0000#16, false⟩ })

/-- BYTE (R87): its effect, for either engine, its encoding, its only exception, its corner cases and
its example. -/
def Obligations.ByteAdvancesCrc : Prop :=
  (∀ (eng : Config.Engine) (b : Byte) (s : State),
    exec (.byte b) s = .next { s with crc := engineStep eng s.crc b, pending := some ⟨0x0000#16, false⟩ }) ∧
  (∀ (w : Word) (b : Byte), decode w = .ok (.byte b) ↔
    w &&& 0xFFFFFF00#32 = 0x02000000#32 ∧ b = w.extractLsb' 0 8) ∧
  (∀ (w : Word) (s : State), w.extractLsb' 24 8 = 0x02#8 → w.extractLsb' 8 16 ≠ 0#16 →
    runWord w s = .next { s with pending := some ⟨0x0002#16, true⟩ }) ∧
  (∀ n : Nat, compute 0x0000#16 (List.replicate n 0x00#8) = 0x0000#16) ∧
  byteStep 0xFFFF#16 0xFF#8 = 0xFF00#16 ∧ byteStep 0xFF00#16 0xFF#8 = 0x0000#16 ∧
  byteStep 0x8000#16 0x00#8 = 0x7A6C#16 ∧
  (∀ s : State, s.crc = 0x0000#16 →
    runWord 0x02000031#32 s = .next { s with crc := 0xB201#16, pending := some ⟨0x0000#16, false⟩ })

/-- READ (R88): its effect, its encoding, its only exception, its corner cases and its example. -/
def Obligations.ReadReturnsCrc : Prop :=
  (∀ s : State, exec .read s = .next { s with pending := some ⟨s.crc, false⟩ }) ∧
  (∀ w : Word, decode w = .ok .read ↔ w &&& 0xFFFFFFFF#32 = 0x03000000#32) ∧
  (∀ (w : Word) (s : State), w.extractLsb' 24 8 = 0x03#8 → w.extractLsb' 0 24 ≠ 0#24 →
    runWord w s = .next { s with pending := some ⟨0x0002#16, true⟩ }) ∧
  (∀ (s t : State), exec .read s = .next t → exec .read t = .next t) ∧
  exec .read State.reset = .next { State.reset with pending := some ⟨0x0000#16, false⟩ } ∧
  (∀ s : State,
    s.crc = compute 0x0000#16 [0x31#8, 0x32#8, 0x33#8, 0x34#8, 0x35#8, 0x36#8, 0x37#8, 0x38#8, 0x39#8] →
    s.crc = 0x3D48#16 ∧ runWord 0x03000000#32 s = .next { s with pending := some ⟨0x3D48#16, false⟩ })

/-- FINAL (R121): its effect, its encoding, its only exception, its corner cases and its example. -/
def Obligations.FinalReturnsComplement : Prop :=
  (∀ s : State, exec .final s = .next { s with pending := some ⟨0xFFFF#16 ^^^ s.crc, false⟩ }) ∧
  (∀ w : Word, decode w = .ok .final ↔ w &&& 0xFFFFFFFF#32 = 0x04000000#32) ∧
  (∀ (w : Word) (s : State), w.extractLsb' 24 8 = 0x04#8 → w.extractLsb' 0 24 ≠ 0#24 →
    runWord w s = .next { s with pending := some ⟨0x0002#16, true⟩ }) ∧
  (∀ (s t : State), exec .final s = .next t → exec .final t = .next t) ∧
  exec .final State.reset = .next { State.reset with pending := some ⟨0xFFFF#16, false⟩ } ∧
  (∀ (s t : State), exec (.load 0x0000#16) s = .next t →
    exec .final t = .next { t with pending := some ⟨0xFFFF#16, false⟩ }) ∧
  (∀ s : State,
    s.crc = compute 0x0000#16 [0x31#8, 0x32#8, 0x33#8, 0x34#8, 0x35#8, 0x36#8, 0x37#8, 0x38#8, 0x39#8] →
    runWord 0x04000000#32 s = .next { s with crc := 0x3D48#16, pending := some ⟨0xC2B7#16, false⟩ })

/-- FINV (R122): its effect, its encoding, its only exception, its corner cases and its example. -/
def Obligations.FinvReturnsOperandComplement : Prop :=
  (∀ (v : Half) (s : State),
    exec (.finv v) s = .next { s with pending := some ⟨0xFFFF#16 ^^^ v, false⟩ }) ∧
  (∀ (w : Word) (v : Half), decode w = .ok (.finv v) ↔
    w &&& 0xFFFF0000#32 = 0x05000000#32 ∧ v = w.extractLsb' 0 16) ∧
  (∀ (w : Word) (s : State), w.extractLsb' 24 8 = 0x05#8 → w.extractLsb' 16 8 ≠ 0#8 →
    runWord w s = .next { s with pending := some ⟨0x0002#16, true⟩ }) ∧
  (∀ s : State, exec (.finv 0x0000#16) s = .next { s with pending := some ⟨0xFFFF#16, false⟩ }) ∧
  (∀ s : State, exec (.finv 0xFFFF#16) s = .next { s with pending := some ⟨0x0000#16, false⟩ }) ∧
  (∀ s : State, runWord 0x05001234#32 s = .next { s with pending := some ⟨0xEDCB#16, false⟩ })

/-- TBL (R102): its effect, its encoding, its only exception, its corner cases and its example. -/
def Obligations.TblReturnsTableEntry : Prop :=
  (∀ (k : Byte) (s : State), exec (.tbl k) s = .next { s with pending := some ⟨romRead k, false⟩ }) ∧
  (∀ (w : Word) (k : Byte), decode w = .ok (.tbl k) ↔
    w &&& 0xFFFFFF00#32 = 0x06000000#32 ∧ k = w.extractLsb' 0 8) ∧
  (∀ (w : Word) (s : State), w.extractLsb' 24 8 = 0x06#8 → w.extractLsb' 8 16 ≠ 0#16 →
    runWord w s = .next { s with pending := some ⟨0x0002#16, true⟩ }) ∧
  romRead 0x00#8 = 0x0000#16 ∧ romRead 0x01#8 = Config.poly ∧
  (∀ (k : Byte) (c : Half), (archRun c [encode (.load 0x0000#16), encode (.byte k), encode .read]).2.getLast? =
    some ⟨romRead k, false⟩) ∧
  (∀ s : State, runWord 0x060000FF#32 s = .next { s with pending := some ⟨0xAC48#16, false⟩ })

/-- Legal commands always complete with `rsp_err = 0` (R143), and a command changes nothing of the
state but `crc` and the response. -/
def Obligations.CommandsCompleteWithoutError : Prop :=
  ∀ (i : Instr) (s : State), ∃ c d, exec i s = .next { s with crc := c, pending := some ⟨d, false⟩ }

/-! ### The arithmetic -/

/-- Engine equivalence (R84): the table-driven step is the bit-serial step, so `compute` gives the same
value under either engine, and it is the value the machine computes. -/
def Obligations.EnginesAgree : Prop :=
  (∀ (r : Half) (b : Byte), stepTab r b = stepBs r b) ∧
  (∀ (e e' : Config.Engine) (r : Half) (bs : List Byte), engineCompute e r bs = engineCompute e' r bs) ∧
  (∀ (e : Config.Engine) (r : Half) (bs : List Byte), engineCompute e r bs = compute r bs)

/-- The accumulator divides polynomials over GF(2) (R1, R6, R22): the register, moved up by the
message's length, and the message, moved up by 16, add up to a multiple of the generator
x^16+x^13+x^12+x^11+x^10+x^8+x^6+x^5+x^2+1 (0x13D65) and the new register, which has degree below 16. -/
def Obligations.ComputeIsPolynomialRemainder : Prop :=
  ∀ (r : Half) (bs : List Byte), ∃ q : List Bool,
    (r.toNat * 2 ^ (8 * bs.length)) ^^^ (messageNat bs * 2 ^ 16) =
      carrylessMul q 0x13D65 ^^^ (compute r bs).toNat

/-- One iteration of R80 on numbers: doubling, and removing the full generator 0x13D65 if bit 16 came
up, which leaves a value below 2^16 without any mask (R22, R83). -/
def Obligations.IterationRemovesGenerator : Prop :=
  ∀ x : Half, (shiftXor x).toNat = if 2 ^ 15 ≤ x.toNat then (2 * x.toNat) ^^^ 0x13D65 else 2 * x.toNat

/-- The ROM holds what the generator rule gives (R100), and the listed checks hold. -/
def Obligations.RomHoldsGeneratorValues : Prop :=
  rom.length = 256 ∧
  (∀ k : Byte, romRead k = stepBs 0x0000#16 k) ∧
  (∀ k : Byte, romRead k = shiftXorN 8 (k.setWidth 16 <<< 8)) ∧
  romRead 0x00#8 = 0x0000#16 ∧ romRead 0x80#8 = 0x7A6C#16 ∧ romRead 0xFF#8 = 0xAC48#16 ∧
  romRead 0x01#8 = 0x3D65#16 ∧ romRead 0x02#8 = 0x7ACA#16 ∧ romRead 0x04#8 = 0xF594#16 ∧
  romRead 0x08#8 = 0xD64D#16 ∧ romRead 0x10#8 = 0x91FF#16 ∧ romRead 0x20#8 = 0x1E9B#16 ∧
  romRead 0x40#8 = 0x3D36#16

/-- The table is linear over XOR and injective (R103). -/
def Obligations.TableIsLinear : Prop :=
  (∀ a b : Byte, romRead (a ^^^ b) = romRead a ^^^ romRead b) ∧
  (∀ k : Byte, romRead k = 0x0000#16 ↔ k = 0x00#8) ∧
  (∀ a b : Byte, romRead a = romRead b → a = b)

/-- The step is linear over XOR, fixes zero, and is a bijection of the register for each byte; a byte
other than zero gives a value other than zero (R89 (a) to (d)). -/
def Obligations.StepIsLinearBijection : Prop :=
  (∀ (r r' : Half) (b b' : Byte), byteStep (r ^^^ r') (b ^^^ b') = byteStep r b ^^^ byteStep r' b') ∧
  byteStep 0x0000#16 0x00#8 = 0x0000#16 ∧
  (∀ b : Byte, Function.Bijective fun r => byteStep r b) ∧
  (∀ k : Byte, k ≠ 0x00#8 → romRead k ≠ 0x0000#16)

/-- An error pattern changes the result by its own CRC from zero, whatever the register and the message;
so flipping any one bit of any message changes the finalised checksum from every prior register (R89). -/
def Obligations.BitFlipChangesChecksum : Prop :=
  (∀ (r : Half) (bs es : List Byte), bs.length = es.length →
    compute r (List.zipWith (· ^^^ ·) bs es) = compute r bs ^^^ compute 0x0000#16 es) ∧
  (∀ (r : Half) (before after : List Byte) (b : Byte) (k : Nat), k < 8 →
    finalize (compute r (before ++ (b ^^^ (1#8 <<< k)) :: after)) ≠
      finalize (compute r (before ++ b :: after)))

/-- The chaining law (R86), on `compute` and in commands. -/
def Obligations.ChainingLaw : Prop :=
  (∀ (r : Half) (b1 b2 : List Byte), compute (compute r b1) b2 = compute r (b1 ++ b2)) ∧
  (∀ r : Half, compute r [] = r) ∧
  (∀ (c r : Half) (b1 b2 : List Byte),
    (archRun c (encode (.load r) :: (byteWords b1 ++ byteWords b2))).1 = compute r (b1 ++ b2) ∧
    (archRun c (encode (.load r) :: byteWords (b1 ++ b2))).1 = compute r (b1 ++ b2)) ∧
  (∀ (c r : Half) (b1 b2 : List Byte),
    (archRun c (encode (.load r) :: (byteWords b1 ++ [encode .read]))).2.getLast? =
      some ⟨compute r b1, false⟩ ∧
    (archRun c (encode (.load r) ::
      (byteWords b1 ++ encode .read :: encode (.load (compute r b1)) :: byteWords b2))).1 =
      compute r (b1 ++ b2))

/-- The source's three operations as command sequences (R70): the final `crc` and every response. -/
def Obligations.ApiSequencesCompute : Prop :=
  (∀ (c initial : Half) (data : List Byte),
    archRun c (crcComputeWords initial data) =
      (compute initial data,
        List.replicate (data.length + 1) ⟨0x0000#16, false⟩ ++ [⟨compute initial data, false⟩])) ∧
  (∀ (c : Half) (data : List Byte),
    archRun c (crcComputeFinalizeWords data) =
      (compute 0x0000#16 data,
        List.replicate (data.length + 1) ⟨0x0000#16, false⟩ ++ [⟨finalize (compute 0x0000#16 data), false⟩])) ∧
  (∀ c v : Half, archRun c (crcFinalizeWords v) = (c, [⟨finalize v, false⟩]))

/-- The one-shot law (R123). -/
def Obligations.OneShotLaw : Prop :=
  ∀ (c : Half) (b : List Byte),
    (archRun c (encode (.load 0x0000#16) :: (byteWords b ++ [encode .final]))).2.getLast? =
      some ⟨finalize (compute 0x0000#16 b), false⟩ ∧
    ∃ v, (archRun c (encode (.load 0x0000#16) :: (byteWords b ++ [encode .read]))).2.getLast? = some ⟨v, false⟩ ∧
      (archRun c (encode (.load 0x0000#16) :: (byteWords b ++ [encode .read, encode (.finv v)]))).2.getLast? =
        some ⟨finalize (compute 0x0000#16 b), false⟩

/-- The finalizer (R120): the one's complement, an involution. -/
def Obligations.FinalizeIsComplement : Prop :=
  (∀ r : Half, finalize r = 0xFFFF#16 ^^^ r ∧ finalize r = ~~~r ∧ finalize (finalize r) = r) ∧
  finalize 0x0000#16 = 0xFFFF#16 ∧ finalize 0xFFFF#16 = 0x0000#16

/-- Finalise once (R124): a chain continued from a finalised register gives a wrong value, always;
finalising again restores it; a FINAL in mid-stream is harmless. -/
def Obligations.FinaliseOnceAtTheEnd : Prop :=
  (∀ (r : Half) (bs : List Byte), compute (finalize r) bs ≠ compute r bs) ∧
  (∀ (r : Half) (bs : List Byte), compute (finalize (finalize r)) bs = compute r bs) ∧
  (∀ (c r : Half) (bs : List Byte),
    (archRun c (encode (.load (finalize r)) :: byteWords bs)).1 = compute (~~~r) bs) ∧
  compute (compute 0x0000#16 [0x31#8, 0x32#8, 0x33#8, 0x34#8])
    [0x35#8, 0x36#8, 0x37#8, 0x38#8, 0x39#8] = 0x3D48#16 ∧
  compute (finalize (compute 0x0000#16 [0x31#8, 0x32#8, 0x33#8, 0x34#8]))
    [0x35#8, 0x36#8, 0x37#8, 0x38#8, 0x39#8] = 0x8003#16 ∧
  (∀ (c : Half) (b1 b2 : List Byte),
    (archRun c (byteWords b1 ++ encode .final :: byteWords b2)).1 = compute c (b1 ++ b2))

/-- Context save and restore (R90): READ returns the running value; LOAD of it, after any other words or
on an instance with any other register, resumes the computation, and its FINAL is that of an
uninterrupted run. -/
def Obligations.SaveRestoreResumes : Prop :=
  ∀ (c c' : Half) (b1 b2 : List Byte) (others : List Word),
    ∃ r, (archRun c (byteWords b1 ++ [encode .read])).2.getLast? = some ⟨r, false⟩ ∧
      (archRun c (byteWords b1 ++ encode .read ::
        (others ++ encode (.load r) :: (byteWords b2 ++ [encode .final])))).2.getLast? =
        some ⟨finalize (compute c (b1 ++ b2)), false⟩ ∧
      (archRun c' (encode (.load r) :: (byteWords b2 ++ [encode .final]))).2.getLast? =
        some ⟨finalize (compute c (b1 ++ b2)), false⟩

/-- The residue (95_test_vectors.md 2.9): a message followed by its own register, high byte first, leaves
0x0000, and followed by its finalised register leaves 0xA366, whatever the message. -/
def Obligations.ResidueIsConstant : Prop :=
  ∀ (r : Half) (bs : List Byte),
    compute r (bs ++ [highByte (compute r bs), lowByte (compute r bs)]) = 0x0000#16 ∧
    compute r (bs ++ [highByte (finalize (compute r bs)), lowByte (finalize (compute r bs))]) = 0xA366#16

/-- The hidden bit-serial engine (10_state.md R28(a)): after `n` of its eight iterations it holds the
partial register of R80, and after eight the byte step. That it rests after its eighth iteration and
holds its value is the model's choice (DESIGN CHOICE, log 7). -/
def Obligations.SerialEngineReachesStep : Prop :=
  (∀ (r : Half) (b : Byte) (n : Nat), n ≤ 8 →
    SerialEngine.tick^[n] (SerialEngine.start r b) = ⟨8 - n, shiftXorN n (r ^^^ (b.setWidth 16 <<< 8))⟩) ∧
  (∀ (r : Half) (b : Byte) (n : Nat), 8 ≤ n →
    (SerialEngine.tick^[n] (SerialEngine.start r b)).value = byteStep r b)

/-! ### The whole machine -/

/-- At reset, whatever the host has scheduled, the invariants hold. -/
def Obligations.InvariantsHoldAtReset : Prop :=
  ∀ es : List HostEvent,
    ({ State.reset with schedule := es } : State).OneInFlight ∧
    ({ State.reset with schedule := es } : State).TranscriptAgrees ∧
    ({ State.reset with schedule := es } : State).SerialAgrees

/-- At most one command or response is in the block (R28(c), R30 clause 4): every step keeps it. -/
def Obligations.OneInFlightKept : Prop :=
  ∀ s t : State, s.OneInFlight → step s = .next t → t.OneInFlight

/-- Sequential consistency (20_memory.md R47): every step keeps that `crc` and the responses are those of
the architectural step applied to the accepted words, in order. The transcript fields are the model's
own (log 3). -/
def Obligations.TranscriptKept : Prop :=
  ∀ s t : State, s.TranscriptAgrees → step s = .next t → t.TranscriptAgrees

/-- Every step keeps that the hidden bit-serial engine leads to the value the BYTE in execution writes
(R28(a), R46). One iteration a cycle is the model's choice (log 7). -/
def Obligations.SerialEngineKept : Prop :=
  ∀ s t : State, s.SerialAgrees → step s = .next t → t.SerialAgrees

/-- Only LOAD, BYTE and reset write `crc` (R20), on the commands and on the steps: a step that changes
`crc` is a reset edge, or completes a LOAD or a BYTE, which gives the new value, or is a loss of power,
after which `crc` is unspecified until the next reset (R154; the event is the model's, log 6). -/
def Obligations.OnlyLoadByteResetWriteCrc : Prop :=
  (∀ (i : Instr) (s t : State), exec i s = .next t → t.crc ≠ s.crc →
    i = .load t.crc ∨ ∃ b, i = .byte b ∧ t.crc = byteStep s.crc b) ∧
  (∀ s t : State, step s = .next t → t.crc ≠ s.crc →
    (∃ e rest, s.schedule = .edge e :: rest ∧ e.rst = true ∧ t.crc = 0x0000#16) ∨
    (∃ rest, s.schedule = .powerLoss :: rest ∧ t.initialized = false) ∨
    (∃ w, ((∃ ex, s.executing = some ex ∧ ex.word = w) ∨
        (s.Ready ∧ ∃ e rest, s.schedule = .edge e :: rest ∧ e.cmdValid = true ∧ e.cmdData = w)) ∧
      (decode w = .ok (.load t.crc) ∨ ∃ b, decode w = .ok (.byte b) ∧ t.crc = byteStep s.crc b)))

/-- A finished run (R170): a host that sends `w1 ... wn` from the reset state and takes each response
observes exactly the responses and the final `crc` of the architectural step over the list. -/
def Obligations.FinishedRunObservation : Prop :=
  ∀ ws : List Word,
    steps (2 * ws.length) { State.reset with schedule := runSchedule ws } = .next { State.reset with
      crc := (archRun 0x0000#16 ws).1
      accepted := ws
      delivered := (archRun 0x0000#16 ws).2 }

/-- An illegal command leaves no trace but its response (R147): the run with it ends with the same
`crc`, and its responses are those of the run without it and, in its place, `(code, 1)`. -/
def Obligations.IllegalCommandLeavesNoTrace : Prop :=
  ∀ (before after : List Word) (w : Word) (c : IllegalCause), IllegalWord c w →
    ∃ t u : State,
      steps (2 * (before ++ w :: after).length)
        { State.reset with schedule := runSchedule (before ++ w :: after) } = .next t ∧
      steps (2 * (before ++ after).length)
        { State.reset with schedule := runSchedule (before ++ after) } = .next u ∧
      t.crc = u.crc ∧
      t.delivered =
        u.delivered.take before.length ++ ⟨c.code, true⟩ :: u.delivered.drop before.length

/-- Timing does not show (R164, R168): two runs from reset, over any schedules of the host and any
completion times of the block, in which the same words were accepted since the last reset and which
have come to rest, have the same `crc` and have delivered the same responses. -/
def Obligations.ObservationIndependentOfTiming : Prop :=
  ∀ (n n' : Nat) (es es' : List HostEvent) (s s' : State),
    steps n { State.reset with schedule := es } = .next s →
    steps n' { State.reset with schedule := es' } = .next s' →
    s.Ready → s'.Ready → s.accepted = s'.accepted →
    s.crc = s'.crc ∧ s.delivered = s'.delivered

/-! ### The assembler -/

/-- Every command line assembles to its command's word, and a literal that does not fit its field is an
error and not a truncation; `.word` gives a raw word unchanged; a character literal is for BYTE and TBL
only (R68). Which characters have an ASCII code, and that a number over 0xFFFFFFFF is an error of
`.word`, is the model's choice (DESIGN CHOICE, log 11). -/
def Obligations.AssemblerEmitsWords : Prop :=
  (∀ n : Nat, Asm.assembleLine (.load (.num n)) =
    if n ≤ 0xFFFF then .ok [encode (.load (BitVec.ofNat 16 n))] else .error .doesNotFit) ∧
  (∀ n : Nat, Asm.assembleLine (.finv (.num n)) =
    if n ≤ 0xFFFF then .ok [encode (.finv (BitVec.ofNat 16 n))] else .error .doesNotFit) ∧
  (∀ n : Nat, Asm.assembleLine (.byte (.num n)) =
    if n ≤ 0xFF then .ok [encode (.byte (BitVec.ofNat 8 n))] else .error .doesNotFit) ∧
  (∀ n : Nat, Asm.assembleLine (.tbl (.num n)) =
    if n ≤ 0xFF then .ok [encode (.tbl (BitVec.ofNat 8 n))] else .error .doesNotFit) ∧
  Asm.assembleLine .read = .ok [encode .read] ∧ Asm.assembleLine .final = .ok [encode .final] ∧
  (∀ n : Nat, Asm.assembleLine (.word (.num n)) =
    if n ≤ 0xFFFFFFFF then .ok [BitVec.ofNat 32 n] else .error .doesNotFit) ∧
  (∀ c : Char, c.toNat < 128 →
    Asm.assembleLine (.byte (.chr c)) = .ok [encode (.byte (BitVec.ofNat 8 c.toNat))]) ∧
  (∀ c : Char, c.toNat < 128 →
    Asm.assembleLine (.tbl (.chr c)) = .ok [encode (.tbl (BitVec.ofNat 8 c.toNat))]) ∧
  (∀ c : Char, 128 ≤ c.toNat →
    Asm.assembleLine (.byte (.chr c)) = .error .doesNotFit ∧
    Asm.assembleLine (.tbl (.chr c)) = .error .doesNotFit) ∧
  (∀ c : Char,
    Asm.assembleLine (.load (.chr c)) = .error .doesNotFit ∧
    Asm.assembleLine (.finv (.chr c)) = .error .doesNotFit ∧
    Asm.assembleLine (.word (.chr c)) = .error .doesNotFit)

/-- The pseudo-instructions and their expansions (R69). -/
def Obligations.PseudoInstructionsExpand : Prop :=
  Asm.assembleLine .clr = Asm.assembleLine (.load (.num 0x0000)) ∧
  (∀ v, Asm.assembleLine (.fin v) = Asm.assembleLine (.finv v)) ∧
  Asm.assembleLine .save = Asm.assembleLine .read ∧
  (∀ v, Asm.assembleLine (.restore v) = Asm.assembleLine (.load v)) ∧
  Asm.assembleLine (.bytes []) = .ok [] ∧
  (∀ (b : Asm.Literal) (bs : List Asm.Literal) (ws rest : List Word),
    Asm.assembleLine (.byte b) = .ok ws → Asm.assembleLine (.bytes bs) = .ok rest →
    Asm.assembleLine (.bytes (b :: bs)) = .ok (ws ++ rest)) ∧
  (∀ text, Asm.assembleLine (.str text) = Asm.assembleLine (.bytes (text.map .chr)))
end

