-- ==== Sys2Proof/Laws/Crc.lean ====
section
/-! SUPPORT. Lemmas of the arithmetic: the iteration of R80 is linear over XOR and composes, and
`compute` is a left fold (00_scope.md R10). -/

namespace Sys2Proof.Machine

/-- One iteration is linear over XOR: the conditional term is `x[15] * POLY` (R89(a)). -/
theorem shiftXor_xor (x y : Half) : shiftXor (x ^^^ y) = shiftXor x ^^^ shiftXor y := by
  unfold shiftXor
  rw [BitVec.getLsbD_xor, BitVec.shiftLeft_xor_distrib]
  cases x.getLsbD 15 <;> cases y.getLsbD 15 <;>
    simp only [Bool.xor_false, Bool.xor_true, Bool.not_false, Bool.not_true, if_true, if_false,
      Bool.false_eq_true, BitVec.xor_assoc]
  · rw [BitVec.xor_comm (y <<< 1)]
  · rw [BitVec.xor_comm (y <<< 1), ← BitVec.xor_assoc Config.poly, BitVec.xor_self, BitVec.zero_xor]

theorem shiftXorN_xor (n : Nat) (x y : Half) : shiftXorN n (x ^^^ y) = shiftXorN n x ^^^ shiftXorN n y := by
  induction n generalizing x y with
  | zero => rfl
  | succ n ih => simp only [shiftXorN, shiftXor_xor, ih]

theorem shiftXorN_succ (n : Nat) (x : Half) : shiftXorN (n + 1) x = shiftXor (shiftXorN n x) := by
  induction n generalizing x with
  | zero => rfl
  | succ n ih => rw [shiftXorN, ih]; rfl

theorem shiftXorN_add (m n : Nat) (x : Half) : shiftXorN (m + n) x = shiftXorN n (shiftXorN m x) := by
  induction n with
  | zero => rfl
  | succ n ih => rw [← Nat.add_assoc, shiftXorN_succ, ih, ← shiftXorN_succ]

theorem byteInHigh_xor (a b : Byte) : byteInHigh (a ^^^ b) = byteInHigh a ^^^ byteInHigh b := by
  simp [byteInHigh, BitVec.shiftLeft_xor_distrib]

@[simp] theorem compute_nil (r : Half) : compute r [] = r := rfl

@[simp] theorem compute_cons (r : Half) (b : Byte) (bs : List Byte) :
    compute r (b :: bs) = compute (byteStep r b) bs := rfl

theorem compute_append (r : Half) (b1 b2 : List Byte) :
    compute r (b1 ++ b2) = compute (compute r b1) b2 := by
  induction b1 generalizing r with
  | nil => rfl
  | cons b b1 ih => simp [ih]

theorem finalize_eq_not (r : Half) : finalize r = ~~~r := by
  rw [finalize, show Config.finalXor = BitVec.allOnes 16 from rfl, BitVec.allOnes_xor]

/-- The ROM has an entry for each of the 256 indices (R23). -/
theorem rom_length : rom.length = 256 := by
  simp only [rom, List.length_append]
  rfl

/-- So `romRead` never reads its default. -/
theorem romRead_eq_getElem (k : Byte) :
    romRead k = rom[k.toNat]'(by rw [rom_length]; exact k.isLt) := by
  simp [romRead, List.getD, rom_length, k.isLt]

end Sys2Proof.Machine
end

