-- ==== Sys2Proof/Laws/Decode.lean ====
section
/-! SUPPORT. The fields of the three layouts (30_encoding.md R60), and a word put together again from
its fields. -/

namespace Sys2Proof

theorem opField_layoutI16 (op : Byte) (v : Half) : opField (layoutI16 op v) = op := by
  rw [opField, layoutI16, BitVec.extractLsb'_append_eq_of_le (by decide)]
  exact BitVec.extractLsb'_append_eq_left

theorem rsvI16_layoutI16 (op : Byte) (v : Half) : rsvI16 (layoutI16 op v) = 0#8 := by
  rw [rsvI16, layoutI16, BitVec.extractLsb'_append_eq_of_le (by decide)]
  exact BitVec.extractLsb'_append_eq_right

theorem imm16Field_layoutI16 (op : Byte) (v : Half) : imm16Field (layoutI16 op v) = v :=
  BitVec.extractLsb'_append_eq_right

theorem opField_layoutI8 (op b : Byte) : opField (layoutI8 op b) = op := by
  rw [opField, layoutI8, BitVec.extractLsb'_append_eq_of_le (by decide)]
  exact BitVec.extractLsb'_append_eq_left

theorem rsvI8_layoutI8 (op b : Byte) : rsvI8 (layoutI8 op b) = 0#16 := by
  rw [rsvI8, layoutI8, BitVec.extractLsb'_append_eq_of_le (by decide)]
  exact BitVec.extractLsb'_append_eq_right

theorem imm8Field_layoutI8 (op b : Byte) : imm8Field (layoutI8 op b) = b :=
  BitVec.extractLsb'_append_eq_right

theorem opField_layoutN (op : Byte) : opField (layoutN op) = op :=
  BitVec.extractLsb'_append_eq_left

theorem rsvN_layoutN (op : Byte) : rsvN (layoutN op) = 0#24 :=
  BitVec.extractLsb'_append_eq_right

/-- A word with a zero I16 reserved field is the layout of its fields. -/
theorem layoutI16_fields (w : Word) (h : rsvI16 w = 0#8) : layoutI16 (opField w) (imm16Field w) = w := by
  rw [layoutI16, ← h, opField, rsvI16, imm16Field,
    BitVec.extractLsb'_append_extractLsb'_eq_extractLsb' (by decide)]
  exact BitVec.extractLsb'_append_extractLsb'

/-- A word with a zero I8 reserved field is the layout of its fields. -/
theorem layoutI8_fields (w : Word) (h : rsvI8 w = 0#16) : layoutI8 (opField w) (imm8Field w) = w := by
  rw [layoutI8, ← h, opField, rsvI8, imm8Field,
    BitVec.extractLsb'_append_extractLsb'_eq_extractLsb' (by decide)]
  exact BitVec.extractLsb'_append_extractLsb'

/-- A word with a zero N reserved field is the layout of its opcode. -/
theorem layoutN_fields (w : Word) (h : rsvN w = 0#24) : layoutN (opField w) = w := by
  rw [layoutN, ← h, opField, rsvN]
  exact BitVec.extractLsb'_append_extractLsb'

theorem unlessReserved_ok {n : Nat} (rsv : BitVec n) (i j : Instr) :
    unlessReserved rsv i = .ok j ↔ rsv = 0#n ∧ i = j := by
  by_cases h : rsv = 0#n
  · simp [unlessReserved, h]
  · rw [unlessReserved, if_neg h]
    constructor
    · intro hc
      cases hc
    · rintro ⟨hz, -⟩
      exact absurd hz h

theorem unlessReserved_error {n : Nat} (rsv : BitVec n) (i : Instr) (c : IllegalCause) :
    unlessReserved rsv i = .error c ↔ rsv ≠ 0#n ∧ c = .reservedNonzero := by
  by_cases h : rsv = 0#n
  · simp [unlessReserved, h]
  · rw [unlessReserved, if_neg h]
    constructor
    · intro hc
      cases hc
      exact ⟨h, rfl⟩
    · rintro ⟨-, rfl⟩
      rfl

end Sys2Proof
end

