-- ==== Sys2Proof/Laws/State.lean ====
section
/-! SUPPORT. What each update of State does to each field, once, so that no later proof unfolds a
record update. -/

namespace Sys2Proof.Machine

@[simp] theorem State.setCrc_crc (s : State) (v : Half) : (s.setCrc v).crc = v := rfl
@[simp] theorem State.setCrc_executing (s : State) (v : Half) : (s.setCrc v).executing = s.executing := rfl
@[simp] theorem State.setCrc_pending (s : State) (v : Half) : (s.setCrc v).pending = s.pending := rfl
@[simp] theorem State.setCrc_initialized (s : State) (v : Half) : (s.setCrc v).initialized = s.initialized := rfl
@[simp] theorem State.setCrc_schedule (s : State) (v : Half) : (s.setCrc v).schedule = s.schedule := rfl
@[simp] theorem State.setCrc_accepted (s : State) (v : Half) : (s.setCrc v).accepted = s.accepted := rfl
@[simp] theorem State.setCrc_delivered (s : State) (v : Half) : (s.setCrc v).delivered = s.delivered := rfl
@[simp] theorem State.setCrc_freeDraws (s : State) (v : Half) : (s.setCrc v).freeDraws = s.freeDraws := rfl

@[simp] theorem State.respond_crc (s : State) (r : Response) : (s.respond r).crc = s.crc := rfl
@[simp] theorem State.respond_executing (s : State) (r : Response) : (s.respond r).executing = s.executing := rfl
@[simp] theorem State.respond_pending (s : State) (r : Response) : (s.respond r).pending = some r := rfl
@[simp] theorem State.respond_initialized (s : State) (r : Response) : (s.respond r).initialized = s.initialized := rfl
@[simp] theorem State.respond_schedule (s : State) (r : Response) : (s.respond r).schedule = s.schedule := rfl
@[simp] theorem State.respond_accepted (s : State) (r : Response) : (s.respond r).accepted = s.accepted := rfl
@[simp] theorem State.respond_delivered (s : State) (r : Response) : (s.respond r).delivered = s.delivered := rfl
@[simp] theorem State.respond_freeDraws (s : State) (r : Response) : (s.respond r).freeDraws = s.freeDraws := rfl

@[simp] theorem State.raiseIllegal_crc (s : State) (c : IllegalCause) : (s.raiseIllegal c).crc = s.crc := rfl
@[simp] theorem State.raiseIllegal_executing (s : State) (c : IllegalCause) : (s.raiseIllegal c).executing = s.executing := rfl
@[simp] theorem State.raiseIllegal_pending (s : State) (c : IllegalCause) : (s.raiseIllegal c).pending = some (Response.illegal c) := rfl
@[simp] theorem State.raiseIllegal_initialized (s : State) (c : IllegalCause) : (s.raiseIllegal c).initialized = s.initialized := rfl
@[simp] theorem State.raiseIllegal_schedule (s : State) (c : IllegalCause) : (s.raiseIllegal c).schedule = s.schedule := rfl
@[simp] theorem State.raiseIllegal_accepted (s : State) (c : IllegalCause) : (s.raiseIllegal c).accepted = s.accepted := rfl
@[simp] theorem State.raiseIllegal_delivered (s : State) (c : IllegalCause) : (s.raiseIllegal c).delivered = s.delivered := rfl
@[simp] theorem State.raiseIllegal_freeDraws (s : State) (c : IllegalCause) : (s.raiseIllegal c).freeDraws = s.freeDraws := rfl

@[simp] theorem State.applyReset_crc (s : State) : (s.applyReset).crc = Config.resetCrc := rfl
@[simp] theorem State.applyReset_executing (s : State) : (s.applyReset).executing = none := rfl
@[simp] theorem State.applyReset_pending (s : State) : (s.applyReset).pending = none := rfl
@[simp] theorem State.applyReset_initialized (s : State) : (s.applyReset).initialized = true := rfl
@[simp] theorem State.applyReset_schedule (s : State) : (s.applyReset).schedule = s.schedule := rfl
@[simp] theorem State.applyReset_accepted (s : State) : (s.applyReset).accepted = [] := rfl
@[simp] theorem State.applyReset_delivered (s : State) : (s.applyReset).delivered = [] := rfl
@[simp] theorem State.applyReset_freeDraws (s : State) : (s.applyReset).freeDraws = s.freeDraws := rfl

@[simp] theorem State.losePower_crc (s : State) : (s.losePower).crc = Config.unresetCrc s.freeDraws := rfl
@[simp] theorem State.losePower_executing (s : State) : (s.losePower).executing = none := rfl
@[simp] theorem State.losePower_pending (s : State) : (s.losePower).pending = none := rfl
@[simp] theorem State.losePower_initialized (s : State) : (s.losePower).initialized = false := rfl
@[simp] theorem State.losePower_schedule (s : State) : (s.losePower).schedule = s.schedule := rfl
@[simp] theorem State.losePower_accepted (s : State) : (s.losePower).accepted = [] := rfl
@[simp] theorem State.losePower_delivered (s : State) : (s.losePower).delivered = [] := rfl
@[simp] theorem State.losePower_freeDraws (s : State) : (s.losePower).freeDraws = s.freeDraws + 1 := rfl

@[simp] theorem State.reset_crc : State.reset.crc = Config.resetCrc := rfl
@[simp] theorem State.reset_executing : State.reset.executing = none := rfl
@[simp] theorem State.reset_pending : State.reset.pending = none := rfl
@[simp] theorem State.reset_initialized : State.reset.initialized = true := rfl
@[simp] theorem State.reset_schedule : State.reset.schedule = [] := rfl
@[simp] theorem State.reset_accepted : State.reset.accepted = [] := rfl
@[simp] theorem State.reset_delivered : State.reset.delivered = [] := rfl
@[simp] theorem State.reset_freeDraws : State.reset.freeDraws = 0 := rfl

@[simp] theorem Execution.start_word (c : Half) (w : Word) : (Execution.start c w).word = w := rfl
@[simp] theorem Execution.tick_word (ex : Execution) : ex.tick.word = ex.word := rfl
@[simp] theorem Execution.tick_serial (ex : Execution) : ex.tick.serial = ex.serial.map SerialEngine.tick := rfl

@[simp] theorem SerialEngine.start_left (r : Half) (b : Byte) : (SerialEngine.start r b).left = 8 := rfl
@[simp] theorem SerialEngine.start_value (r : Half) (b : Byte) :
    (SerialEngine.start r b).value = r ^^^ byteInHigh b := rfl

@[simp] theorem Response.result_data (d : Half) : (Response.result d).data = d := rfl
@[simp] theorem Response.result_err (d : Half) : (Response.result d).err = false := rfl
@[simp] theorem Response.illegal_data (c : IllegalCause) : (Response.illegal c).data = c.code := rfl
@[simp] theorem Response.illegal_err (c : IllegalCause) : (Response.illegal c).err = true := rfl

/-- Nothing of the block survives a loss of power (R154): what comes after it depends only on what the
host does next and on the free draw. -/
theorem State.losePower_congr (s s' : State) (hs : s.schedule = s'.schedule) (hd : s.freeDraws = s'.freeDraws) :
    s.losePower = s'.losePower := by
  simp only [State.losePower, hs, hd]

/-- The response port, by the state. -/
theorem State.outputs_initialized (s : State) (h : s.initialized = true) :
    s.outputs false = some ⟨s.cmdReady, s.pending⟩ := by
  simp [State.outputs, h]

/-- The block is ready exactly when nothing is in execution and nothing is pending. -/
theorem State.cmdReady_iff (s : State) : s.cmdReady = true ↔ s.executing = none ∧ s.pending = none := by
  simp [State.cmdReady]

end Sys2Proof.Machine
end

