-- ==== Sys2Proof/Laws/Exec.lean ====
section
/-! SUPPORT. What each command does, as one record, and what the execution of a word does in the terms
of the architectural step (30_encoding.md R67). -/

namespace Sys2Proof.Machine

theorem exec_load (v : Half) (s : State) :
    exec (.load v) s = .next { s with crc := v, pending := some ⟨0x0000#16, false⟩ } := rfl

theorem exec_byte (b : Byte) (s : State) :
    exec (.byte b) s = .next { s with crc := byteStep s.crc b, pending := some ⟨0x0000#16, false⟩ } := rfl

theorem exec_read (s : State) : exec .read s = .next { s with pending := some ⟨s.crc, false⟩ } := rfl

theorem exec_final (s : State) :
    exec .final s = .next { s with pending := some ⟨finalize s.crc, false⟩ } := rfl

theorem exec_finv (v : Half) (s : State) :
    exec (.finv v) s = .next { s with pending := some ⟨finalize v, false⟩ } := rfl

theorem exec_tbl (k : Byte) (s : State) :
    exec (.tbl k) s = .next { s with pending := some ⟨romRead k, false⟩ } := rfl

/-- The execution of a word, legal or not, is the architectural step: it writes `crc` and the response
and nothing else. -/
theorem runWord_eq (w : Word) (s : State) :
    runWord w s = .next { s with
      crc := (archStep s.crc w).1
      pending := some (archStep s.crc w).2 } := by
  unfold runWord archStep
  cases decode w with
  | error c => rfl
  | ok i =>
    cases i with
    | load v => rfl
    | byte b => rfl
    | read => rfl
    | final => simp only [exec_final, finalize_eq_not]
    | finv v => simp only [exec_finv, finalize_eq_not]
    | tbl k => rfl

/-- The run of a list of words, cut in two. -/
theorem archRun_append (c : Half) (ws vs : List Word) :
    archRun c (ws ++ vs) =
      ((archRun (archRun c ws).1 vs).1, (archRun c ws).2 ++ (archRun (archRun c ws).1 vs).2) := by
  induction ws generalizing c with
  | nil => rfl
  | cons w ws ih => simp [archRun, ih]

/-- Each word has one response (R24, R45). -/
theorem archRun_length (c : Half) (ws : List Word) : (archRun c ws).2.length = ws.length := by
  induction ws generalizing c with
  | nil => rfl
  | cons w ws ih => simp [archRun, ih]

end Sys2Proof.Machine
end

