-- ==== Sys2Proof/Laws/PerInstr.lean ====
section
/-! SUPPORT. Facts about every command as syntax, one lemma per constructor. -/

namespace Sys2Proof.Laws

/-- The opcode of a command, from the opcode map (30_encoding.md R63). -/
def opcodeOf : Instr → Byte
  | .load _ => 0x01#8
  | .byte _ => 0x02#8
  | .read => 0x03#8
  | .final => 0x04#8
  | .finv _ => 0x05#8
  | .tbl _ => 0x06#8

/-- A well-formed command's word carries the opcode of R63. -/
def OpcodeField.Statement (i : Instr) : Prop := i.wellFormed = true ∧ opField (encode i) = opcodeOf i

theorem OpcodeField.load (v : Half) : OpcodeField.Statement (.load v) := ⟨rfl, opField_layoutI16 _ v⟩
theorem OpcodeField.byte (b : Byte) : OpcodeField.Statement (.byte b) := ⟨rfl, opField_layoutI8 _ b⟩
theorem OpcodeField.read : OpcodeField.Statement .read := ⟨rfl, opField_layoutN _⟩
theorem OpcodeField.final : OpcodeField.Statement .final := ⟨rfl, opField_layoutN _⟩
theorem OpcodeField.finv (v : Half) : OpcodeField.Statement (.finv v) := ⟨rfl, opField_layoutI16 _ v⟩
theorem OpcodeField.tbl (k : Byte) : OpcodeField.Statement (.tbl k) := ⟨rfl, opField_layoutI8 _ k⟩

end Sys2Proof.Laws
end

