-- ==== Sys2Proof/Laws/Step.lean ====
section
/-! SUPPORT. What one step can do, said once: by the event at the head of the schedule, by the case of
the state, and as one inversion lemma. -/

namespace Sys2Proof.Machine

theorem step_nil (s : State) (h : s.schedule = []) : step s = edgeStep .idle s := by
  simp only [step, h]

theorem step_edge (s : State) (e : Edge) (rest : List HostEvent) (h : s.schedule = .edge e :: rest) :
    step s = edgeStep e { s with schedule := rest } := by
  simp only [step, h]

theorem step_powerLoss (s : State) (rest : List HostEvent) (h : s.schedule = .powerLoss :: rest) :
    step s = .next (State.losePower { s with schedule := rest }) := by
  simp only [step, h]

theorem edgeStep_reset (e : Edge) (s : State) (h : e.rst = true) : edgeStep e s = .next s.applyReset := by
  simp [edgeStep, h]

theorem edgeStep_uninitialized (e : Edge) (s : State) (h : e.rst = false) (hi : s.initialized = false) :
    edgeStep e s = .refused .beforeFirstReset := by
  simp [edgeStep, h, hi]

theorem edgeStep_finish (e : Edge) (s : State) (ex : Execution) (h : e.rst = false)
    (hi : s.initialized = true) (hx : s.executing = some ex) (hf : e.finish = true) :
    edgeStep e s = .next { s with
      crc := (archStep s.crc ex.word).1
      pending := some (archStep s.crc ex.word).2
      executing := none } := by
  simp [edgeStep, h, hi, hx, continueExecution, hf, runWord_eq]

theorem edgeStep_wait (e : Edge) (s : State) (ex : Execution) (h : e.rst = false)
    (hi : s.initialized = true) (hx : s.executing = some ex) (hf : e.finish = false) :
    edgeStep e s = .next { s with executing := some ex.tick } := by
  simp [edgeStep, h, hi, hx, continueExecution, hf]

theorem edgeStep_pending (e : Edge) (s : State) (r : Response) (h : e.rst = false)
    (hi : s.initialized = true) (hx : s.executing = none) (hp : s.pending = some r) :
    edgeStep e s = .next (offerResponse e.rspReady r s) := by
  simp [edgeStep, h, hi, hx, hp]

theorem edgeStep_accept_finish (e : Edge) (s : State) (h : e.rst = false)
    (hi : s.initialized = true) (hx : s.executing = none) (hp : s.pending = none)
    (hv : e.cmdValid = true) (hf : e.finish = true) :
    edgeStep e s = .next { s with
      crc := (archStep s.crc e.cmdData).1
      pending := some (archStep s.crc e.cmdData).2
      accepted := s.accepted ++ [e.cmdData] } := by
  simp [edgeStep, h, hi, hx, hp, hv, acceptWord, hf, runWord_eq]

theorem edgeStep_accept_wait (e : Edge) (s : State) (h : e.rst = false)
    (hi : s.initialized = true) (hx : s.executing = none) (hp : s.pending = none)
    (hv : e.cmdValid = true) (hf : e.finish = false) :
    edgeStep e s = .next { s with
      accepted := s.accepted ++ [e.cmdData]
      executing := some (.start s.crc e.cmdData) } := by
  simp [edgeStep, h, hi, hx, hp, hv, acceptWord, hf]

theorem edgeStep_idle (e : Edge) (s : State) (h : e.rst = false)
    (hi : s.initialized = true) (hx : s.executing = none) (hp : s.pending = none)
    (hv : e.cmdValid = false) : edgeStep e s = .next s := by
  simp [edgeStep, h, hi, hx, hp, hv]

/-- Everything one edge can do: if it answers a next state, one of these seven cases holds. -/
theorem edgeStep_cases (e : Edge) (s t : State) (h : edgeStep e s = .next t) :
    (e.rst = true ∧ t = s.applyReset) ∨
    (e.rst = false ∧ s.initialized = true ∧
      ((∃ ex, s.executing = some ex ∧ e.finish = true ∧ t = { s with
          crc := (archStep s.crc ex.word).1
          pending := some (archStep s.crc ex.word).2
          executing := none }) ∨
       (∃ ex, s.executing = some ex ∧ e.finish = false ∧ t = { s with executing := some ex.tick }) ∨
       (∃ r, s.executing = none ∧ s.pending = some r ∧ t = offerResponse e.rspReady r s) ∨
       (s.executing = none ∧ s.pending = none ∧ e.cmdValid = true ∧ e.finish = true ∧ t = { s with
          crc := (archStep s.crc e.cmdData).1
          pending := some (archStep s.crc e.cmdData).2
          accepted := s.accepted ++ [e.cmdData] }) ∨
       (s.executing = none ∧ s.pending = none ∧ e.cmdValid = true ∧ e.finish = false ∧ t = { s with
          accepted := s.accepted ++ [e.cmdData]
          executing := some (.start s.crc e.cmdData) }) ∨
       (s.executing = none ∧ s.pending = none ∧ e.cmdValid = false ∧ t = s))) := by
  cases hr : e.rst with
  | true => rw [edgeStep_reset e s hr] at h; cases h; exact .inl ⟨rfl, rfl⟩
  | false =>
    right
    cases hi : s.initialized with
    | false => rw [edgeStep_uninitialized e s hr hi] at h; cases h
    | true =>
      refine ⟨rfl, rfl, ?_⟩
      cases hx : s.executing with
      | some ex =>
        cases hf : e.finish with
        | true => rw [edgeStep_finish e s ex hr hi hx hf] at h; cases h; simp [*]
        | false => rw [edgeStep_wait e s ex hr hi hx hf] at h; cases h; simp [*]
      | none =>
        cases hp : s.pending with
        | some r => rw [edgeStep_pending e s r hr hi hx hp] at h; cases h; simp [*]
        | none =>
          cases hv : e.cmdValid with
          | false => rw [edgeStep_idle e s hr hi hx hp hv] at h; cases h; simp [*]
          | true =>
            cases hf : e.finish with
            | true => rw [edgeStep_accept_finish e s hr hi hx hp hv hf] at h; cases h; simp [*]
            | false => rw [edgeStep_accept_wait e s hr hi hx hp hv hf] at h; cases h; simp [*]

/-- Everything one step can do: the loss of power, or an edge at a state whose schedule has moved on. -/
theorem step_cases (s t : State) (h : step s = .next t) :
    (∃ rest, s.schedule = .powerLoss :: rest ∧ t = State.losePower { s with schedule := rest }) ∨
    (∃ e rest, s.schedule = .edge e :: rest ∧ edgeStep e { s with schedule := rest } = .next t) ∨
    (s.schedule = [] ∧ edgeStep .idle s = .next t) := by
  cases hs : s.schedule with
  | nil => rw [step_nil s hs] at h; exact .inr (.inr ⟨rfl, h⟩)
  | cons ev rest =>
    cases ev with
    | powerLoss => rw [step_powerLoss s rest hs] at h; cases h; exact .inl ⟨rest, rfl, rfl⟩
    | edge e => rw [step_edge s e rest hs] at h; exact .inr (.inl ⟨e, rest, rfl, h⟩)

/-- The host takes the pending response at this step. -/
theorem step_take (s : State) (e : Edge) (rest : List HostEvent) (r : Response)
    (hs : s.schedule = .edge e :: rest) (h : e.rst = false) (hi : s.initialized = true)
    (hx : s.executing = none) (hp : s.pending = some r) (ht : e.rspReady = true) :
    step s = .next { s with pending := none, schedule := rest, delivered := s.delivered ++ [r] } := by
  rw [step_edge s e rest hs, edgeStep_pending e { s with schedule := rest } r h hi hx hp]
  simp [offerResponse, ht]

/-- The host does not take the pending response at this step. -/
theorem step_hold (s : State) (e : Edge) (rest : List HostEvent) (r : Response)
    (hs : s.schedule = .edge e :: rest) (h : e.rst = false) (hi : s.initialized = true)
    (hx : s.executing = none) (hp : s.pending = some r) (ht : e.rspReady = false) :
    step s = .next { s with schedule := rest } := by
  rw [step_edge s e rest hs, edgeStep_pending e { s with schedule := rest } r h hi hx hp]
  simp [offerResponse, ht]

/-- The command in execution completes at this step. -/
theorem step_finish (s : State) (e : Edge) (rest : List HostEvent) (ex : Execution)
    (hs : s.schedule = .edge e :: rest) (h : e.rst = false) (hi : s.initialized = true)
    (hx : s.executing = some ex) (hf : e.finish = true) :
    step s = .next { s with
      crc := (archStep s.crc ex.word).1
      pending := some (archStep s.crc ex.word).2
      executing := none
      schedule := rest } := by
  rw [step_edge s e rest hs, edgeStep_finish e { s with schedule := rest } ex h hi hx hf]

/-- The command in execution does not complete at this step. -/
theorem step_wait (s : State) (e : Edge) (rest : List HostEvent) (ex : Execution)
    (hs : s.schedule = .edge e :: rest) (h : e.rst = false) (hi : s.initialized = true)
    (hx : s.executing = some ex) (hf : e.finish = false) :
    step s = .next { s with executing := some ex.tick, schedule := rest } := by
  rw [step_edge s e rest hs, edgeStep_wait e { s with schedule := rest } ex h hi hx hf]

/-- A command transfers and completes at this step. -/
theorem step_accept_finish (s : State) (e : Edge) (rest : List HostEvent)
    (hs : s.schedule = .edge e :: rest) (h : e.rst = false) (hi : s.initialized = true)
    (hx : s.executing = none) (hp : s.pending = none) (hv : e.cmdValid = true) (hf : e.finish = true) :
    step s = .next { s with
      crc := (archStep s.crc e.cmdData).1
      pending := some (archStep s.crc e.cmdData).2
      schedule := rest
      accepted := s.accepted ++ [e.cmdData] } := by
  rw [step_edge s e rest hs, edgeStep_accept_finish e { s with schedule := rest } h hi hx hp hv hf]

/-- A command transfers and stays in execution at this step. -/
theorem step_accept_wait (s : State) (e : Edge) (rest : List HostEvent)
    (hs : s.schedule = .edge e :: rest) (h : e.rst = false) (hi : s.initialized = true)
    (hx : s.executing = none) (hp : s.pending = none) (hv : e.cmdValid = true) (hf : e.finish = false) :
    step s = .next { s with
      executing := some (.start s.crc e.cmdData)
      schedule := rest
      accepted := s.accepted ++ [e.cmdData] } := by
  rw [step_edge s e rest hs, edgeStep_accept_wait e { s with schedule := rest } h hi hx hp hv hf]

end Sys2Proof.Machine
end

