-- ==== Sys2Proof/Laws/Runs.lean ====
section
/-! SUPPORT. Runs of several steps: one step at a time, and two runs after each other. -/

namespace Sys2Proof.Machine

theorem steps_zero (s : State) : steps 0 s = .next s := rfl

theorem steps_succ (n : Nat) (s t : State) (h : step s = .next t) : steps (n + 1) s = steps n t := by
  have h' : Sys2Proof.core.step s = .next t := h
  simp only [steps, Host.Core.run, h']
  rfl

/-- A run that goes on took a first step that went on. -/
theorem steps_succ_next (n : Nat) (s u : State) (h : steps (n + 1) s = .next u) :
    ∃ t, step s = .next t ∧ steps n t = .next u := by
  cases hs : step s with
  | next t => exact ⟨t, rfl, by rw [← steps_succ n s t hs, h]⟩
  | fault r => exact r.casesOn
  | refused r =>
    have h' : Sys2Proof.core.step s = .refused r := hs
    simp only [steps, Host.Core.run, h'] at h
    cases h

theorem steps_add (m n : Nat) (s t : State) (h : steps m s = .next t) : steps (m + n) s = steps n t := by
  induction m generalizing s with
  | zero => cases h; rw [Nat.zero_add]
  | succ m ih =>
    obtain ⟨u, hu, ht⟩ := steps_succ_next m s t h
    rw [Nat.add_right_comm, steps_succ _ s u hu, ih u ht]

/-- What holds at the start and is kept by every step holds at the end of every run. -/
theorem steps_induction (P : State → Prop) (kept : ∀ s t, P s → step s = .next t → P t)
    (n : Nat) (s t : State) (hs : P s) (h : steps n s = .next t) : P t := by
  induction n generalizing s with
  | zero => cases h; exact hs
  | succ n ih =>
    obtain ⟨u, hu, ht⟩ := steps_succ_next n s t h
    exact ih u (kept s u hs hu) ht

end Sys2Proof.Machine
end

