-- ==== Sys2Proof/Tests/Slice0.lean ====
section
/-! SUPPORT. Tests. Expected values are the spec's own: the encodings of 30_encoding.md R60 and R68 and
opcode_table.json, and the vectors of 95_test_vectors.md, cited at each group. -/

namespace Sys2Proof.Tests

open Sys2Proof.Machine

/-- The block after reset with the register at `c`. -/
def withCrc (c : Half) : State := { State.reset with crc := c }

theorem withCrc_crc (c : Half) : (withCrc c).crc = c := rfl

/-- The register and the response after one step with the word `w` presented to a block at `c`. -/
def oneStep (c : Half) (w : Nat) : Option (Half × Option Response) :=
  match step ((withCrc c).withFetchWord 32 w) with
  | .next t => some (t.crc, t.pending)
  | _ => none

/-! Words written out bit by bit from R60 and the "encoding" column of opcode_table.json. -/

theorem test_decode_load : decode 0b00000001000000001010101111001101#32 = .ok (.load 0xABCD#16) := by decide
theorem test_decode_byte : decode 0b00000010000000000000000010000001#32 = .ok (.byte 0x81#8) := by decide
theorem test_decode_read : decode 0b00000011000000000000000000000000#32 = .ok .read := by decide
theorem test_decode_final : decode 0b00000100000000000000000000000000#32 = .ok .final := by decide
theorem test_decode_finv : decode 0b00000101000000000111000000000001#32 = .ok (.finv 0x7001#16) := by decide
theorem test_decode_tbl : decode 0b00000110000000000000000001111110#32 = .ok (.tbl 0x7E#8) := by decide

theorem test_encode_load : encode (.load 0xABCD#16) = 0b00000001000000001010101111001101#32 := by decide
theorem test_encode_tbl : encode (.tbl 0x7E#8) = 0b00000110000000000000000001111110#32 := by decide

theorem test_decodeTableWord : decodeTableWord 32 0x05001234 = some (.finv 0x1234#16) ∧
    decodeTableWord 32 0x07000000 = none := by decide

/-! Reserved bits at both ends of each field, and the opcodes next to the defined ones (95 section 2.8). -/

theorem test_reserved_i16 : decode 0x01010000#32 = .error .reservedNonzero ∧
    decode 0x01800000#32 = .error .reservedNonzero ∧ decode 0x05010000#32 = .error .reservedNonzero := by decide
theorem test_reserved_i8 : decode 0x02000100#32 = .error .reservedNonzero ∧
    decode 0x02800000#32 = .error .reservedNonzero ∧ decode 0x06000100#32 = .error .reservedNonzero := by decide
theorem test_reserved_n : decode 0x03000001#32 = .error .reservedNonzero ∧
    decode 0x04800000#32 = .error .reservedNonzero := by decide
theorem test_illegal_opcode : decode 0x00000000#32 = .error .illegalOpcode ∧
    decode 0x07000000#32 = .error .illegalOpcode ∧ decode 0xFFFFFFFF#32 = .error .illegalOpcode := by decide

/-! Well-formedness: a line with a literal that does not fit is refused, one for each check (R68). -/

theorem test_illformed_fits16 : (Asm.Line.load (.num 0x10000)).wellFormed = false ∧
    (Asm.Line.finv (.num 0x10000)).wellFormed = false ∧ (Asm.Line.fin (.num 0x10000)).wellFormed = false ∧
    (Asm.Line.restore (.num 0x10000)).wellFormed = false := by decide
theorem test_illformed_chr16 : (Asm.Line.load (.chr 'A')).wellFormed = false := by decide
theorem test_illformed_fits8 : (Asm.Line.byte (.num 0x100)).wellFormed = false ∧
    (Asm.Line.tbl (.num 0x100)).wellFormed = false ∧
    (Asm.Line.bytes [.num 0, .num 0x100]).wellFormed = false := by decide
theorem test_illformed_chr8 : (Asm.Line.byte (.chr 'é')).wellFormed = false ∧
    (Asm.Line.str ['a', 'é']).wellFormed = false := by decide
theorem test_illformed_fits32 : (Asm.Line.word (.num 0x100000000)).wellFormed = false := by decide
theorem test_wellformed_instr : (Instr.load 0xFFFF#16).wellFormed = true := by decide

/-! One step each (95 sections 2.2, 2.3, 2.6, 2.7, 2.8). -/

theorem test_load : oneStep 0xBEEF#16 0x01001234 = some (0x1234#16, some ⟨0x0000#16, false⟩) := by decide
theorem test_byte_general : oneStep 0x1234#16 0x02000056 = some (0xFCA2#16, some ⟨0x0000#16, false⟩) := by decide
theorem test_byte_ones : oneStep 0xFFFF#16 0x02000000 = some (0x5348#16, some ⟨0x0000#16, false⟩) := by decide
theorem test_read : oneStep 0x3D48#16 0x03000000 = some (0x3D48#16, some ⟨0x3D48#16, false⟩) := by decide
theorem test_final : oneStep 0x3D48#16 0x04000000 = some (0x3D48#16, some ⟨0xC2B7#16, false⟩) := by decide
theorem test_finv : oneStep 0x7B6C#16 0x05001234 = some (0x7B6C#16, some ⟨0xEDCB#16, false⟩) := by decide
theorem test_tbl : oneStep 0x1234#16 0x06000041 = some (0x1234#16, some ⟨0x0053#16, false⟩) := by decide
theorem test_tbl_last : oneStep 0x1234#16 0x060000FF = some (0x1234#16, some ⟨0xAC48#16, false⟩) := by decide
theorem test_illegal_op : oneStep 0x1234#16 0xFF000000 = some (0x1234#16, some ⟨0x0001#16, true⟩) := by decide
theorem test_illegal_rsv : oneStep 0x1234#16 0x02FFFFFF = some (0x1234#16, some ⟨0x0002#16, true⟩) := by decide

/-- Both engines on the row 0xC2B7, 0xC2 of 95 section 2.2, and the trace of section 2.1. -/
theorem test_engines : stepBs 0xC2B7#16 0xC2#8 = 0xB700#16 ∧ stepTab 0xC2B7#16 0xC2#8 = 0xB700#16 := by decide
theorem test_serial_trace : shiftXorN 3 0x3100#16 = 0xB565#16 ∧ shiftXorN 8 0x3100#16 = 0xB201#16 := by decide

/-! The assembler on text: the examples of R68 and the pseudo-instructions of R69. -/

theorem test_asm_load : Asm.assembleText "LOAD 0x1234".toList = .ok [0x01001234#32] := by decide
theorem test_asm_byte_chr : Asm.assembleText "  BYTE '1' ; a digit".toList = .ok [0x02000031#32] := by decide
theorem test_asm_tbl_decimal : Asm.assembleText "TBL 128".toList = .ok [0x06000080#32] := by decide
theorem test_asm_word : Asm.assembleText ".word 0x07000000".toList = .ok [0x07000000#32] := by decide
theorem test_asm_bytes : Asm.assembleText "BYTES 0x31, '2'".toList = .ok [0x02000031#32, 0x02000032#32] := by decide
theorem test_asm_str : Asm.assembleText "STR \"12\"".toList = .ok [0x02000031#32, 0x02000032#32] := by decide
theorem test_asm_misfit : Asm.assembleText "BYTE 0x100".toList = .error .doesNotFit := by decide
theorem test_asm_lines : Asm.assembleLines ["CLR".toList, "; nothing".toList, "SAVE".toList, "FIN 1".toList] =
    .ok [0x01000000#32, 0x03000000#32, 0x05000001#32] := by decide

/-! Witnesses: states and operands that meet the hypotheses of the statements together. -/

/-- An idle block at whose next edge the host presents `w`, and then takes the response. -/
def offering (w : Word) : State :=
  { withCrc 0xFFFF#16 with schedule := [.edge (.offer w), .edge .take] }

/-- A block with the BYTE 0x31 in execution for one edge, which completes at the next. -/
def inByte : State :=
  { withCrc 0x0000#16 with
    executing := some (Execution.start 0x0000#16 0x02000031#32).tick
    accepted := [0x02000031#32]
    schedule := [.edge ⟨false, true, 0x03000000#32, false, true⟩] }

/-- A block with a response pending that the host does not take at the next edge. -/
def holding : State :=
  { withCrc 0x1234#16 with
    pending := some ⟨0x0002#16, true⟩
    accepted := [0x01001234#32, 0x01010000#32]
    delivered := [⟨0x0000#16, false⟩]
    schedule := [.edge ⟨false, true, 0x03000000#32, false, false⟩,
      .edge ⟨false, true, 0x03000000#32, true, false⟩, .edge ⟨false, true, 0x03000000#32, false, true⟩] }

/-- A block that has power but no reset yet. -/
def unreset (e : Edge) : State := { withCrc 0x5A5A#16 with initialized := false, schedule := [.edge e] }

/-- DecodeInvertsEncode, EncodeInvertsDecode, WordsOfEachKind. -/
theorem test_witness_encoding : (Instr.load 0xFFFF#16).wellFormed = true ∧
    decode 0x0100FFFF#32 = .ok (.load 0xFFFF#16) ∧ IllegalWord .reservedNonzero 0x01010000#32 ∧
    IllegalWord .illegalOpcode 0x07000000#32 := by
  refine ⟨by decide, by decide, ?_, ?_⟩ <;> (unfold IllegalWord; decide)

/-- DecoderFollowsOpcodeMap: a word under each of its clauses, at the ends of the fields. -/
theorem test_witness_decoder_clauses :
    (0x0100FFFF#32 : Word).extractLsb' 24 8 = 0x01#8 ∧ (0x020000FF#32 : Word).extractLsb' 24 8 = 0x02#8 ∧
    (0x03000001#32 : Word).extractLsb' 24 8 = 0x03#8 ∧ (0x04800000#32 : Word).extractLsb' 24 8 = 0x04#8 ∧
    (0x05FF0000#32 : Word).extractLsb' 24 8 = 0x05#8 ∧ (0x0600FF00#32 : Word).extractLsb' 24 8 = 0x06#8 ∧
    (0x00FFFFFF#32 : Word).extractLsb' 24 8 = 0x00#8 ∧ 0x07#8 ≤ (0x07000000#32 : Word).extractLsb' 24 8 ∧
    0x07#8 ≤ (0xFF000000#32 : Word).extractLsb' 24 8 := by decide

/-- StepRunsDecodedCommand and CommandDoesArchitecturalStep, first clause. -/
theorem test_witness_accepted_command : (offering 0x02000031#32).Ready ∧
    (offering 0x02000031#32).schedule = .edge (.offer 0x02000031#32) :: [.edge .take] ∧
    (Edge.offer 0x02000031#32).rst = false ∧ (Edge.offer 0x02000031#32).cmdValid = true ∧
    (Edge.offer 0x02000031#32).finish = true ∧
    decode (Edge.offer 0x02000031#32).cmdData = .ok (.byte 0x31#8) :=
  ⟨⟨rfl, rfl, rfl⟩, rfl, rfl, rfl, rfl, by decide⟩

/-- StepRunsDecodedCommand and CommandDoesArchitecturalStep, second clause. -/
theorem test_witness_held_command : inByte.initialized = true ∧
    inByte.executing = some (Execution.start 0x0000#16 0x02000031#32).tick ∧
    inByte.schedule = .edge ⟨false, true, 0x03000000#32, false, true⟩ :: [] ∧
    decode (Execution.start 0x0000#16 0x02000031#32).tick.word = .ok (.byte 0x31#8) :=
  ⟨rfl, rfl, rfl, by decide⟩

/-- IllegalCommandAnsweredInBand. -/
theorem test_witness_illegal_command : (offering 0xFFFFFFFF#32).Ready ∧
    (offering 0xFFFFFFFF#32).schedule = .edge (.offer 0xFFFFFFFF#32) :: .edge .take :: [] ∧
    IllegalWord .illegalOpcode (Edge.offer 0xFFFFFFFF#32).cmdData ∧ Edge.take.rst = false ∧
    Edge.take.rspReady = true :=
  ⟨⟨rfl, rfl, rfl⟩, rfl, by unfold IllegalWord; decide, rfl, rfl⟩

/-- StepAnswersAfterReset. -/
theorem test_witness_initialized : holding.initialized = true := rfl

/-- NothingRunsBeforeFirstReset and ResetStateValues: without and with reset at the edge. -/
theorem test_witness_before_reset : (unreset .idle).initialized = false ∧
    (unreset .idle).schedule = .edge .idle :: [] ∧ Edge.idle.rst = false ∧
    (unreset .resetting).schedule = .edge .resetting :: [] ∧ Edge.resetting.rst = true :=
  ⟨rfl, rfl, rfl, rfl, rfl⟩

/-- ResetEdgeRestarts: reset while a BYTE is in execution (95 section 2.10). -/
theorem test_witness_reset_edge :
    ({ inByte with schedule := [.edge .resetting] } : State).schedule = .edge .resetting :: [] ∧
    Edge.resetting.rst = true ∧ inByte.executing ≠ none := by decide

/-- PowerLossNeedsReset: two blocks that differ, and either kind of edge after the loss. -/
theorem test_witness_power_loss :
    holding.freeDraws = inByte.freeDraws ∧ holding.pending ≠ inByte.pending ∧ holding.crc ≠ inByte.crc ∧
    ({ holding with schedule := [.powerLoss, .edge .idle] } : State).schedule = .powerLoss :: [.edge .idle] ∧
    Edge.idle.rst = false ∧ Edge.resetting.rst = true := by decide

/-- CommandTransfersWhenReady: a block that is ready and one that is not. -/
theorem test_witness_command_transfer : (offering 0x03000000#32).initialized = true ∧
    (offering 0x03000000#32).cmdReady = true ∧ holding.initialized = true ∧ holding.cmdReady = false := by decide

/-- ResponseHeldUntilTaken: a pending response with `rsp_ready` 0 and 1, and none pending. -/
theorem test_witness_response : holding.OneInFlight ∧ holding.pending = some ⟨0x0002#16, true⟩ ∧
    Edge.idle.rspReady = false ∧ Edge.take.rspReady = true ∧ (withCrc 0#16).OneInFlight ∧
    (withCrc 0#16).pending = none ∧ (withCrc 0#16).executing = none ∧ Edge.take.cmdValid = false :=
  ⟨.inl rfl, rfl, rfl, rfl, .inl rfl, rfl, rfl, rfl⟩

/-- CmdDataIgnoredWhenInvalid and IdleBlockHoldsState. -/
theorem test_witness_idle : Edge.idle.cmdValid = false ∧ Edge.idle.rst = false ∧ (withCrc 7#16).Ready ∧
    (withCrc 7#16).schedule = [] ∧
    ({ withCrc 7#16 with schedule := [.edge .idle] } : State).Ready :=
  ⟨rfl, rfl, ⟨rfl, rfl, rfl⟩, rfl, ⟨rfl, rfl, rfl⟩⟩

/-- OfferWaitsForResponse: one edge of waiting. -/
theorem test_witness_offer_waits : holding.executing = none ∧ holding.pending = some ⟨0x0002#16, true⟩ ∧
    holding.schedule = [Edge.mk false true 0x03000000#32 false false].map .edge ++
      .edge ⟨false, true, 0x03000000#32, true, false⟩ :: .edge ⟨false, true, 0x03000000#32, false, true⟩ :: [] := by
  decide

/-- ResponseAfterLatency: a BYTE in a build with `LAT_BYTE` 2, and one with both latencies 1. -/
theorem test_witness_latency : (Config.Latency.mk 2 1).legal ∧ (offering 0x02000031#32).Ready ∧
    latencyOf ⟨2, 1⟩ 0x02000031#32 = 2 ∧ latencyOf ⟨2, 1⟩ 0x02000131#32 = 1 ∧
    ExecutionEdges 2 0x02000031#32 [⟨false, true, 0x02000031#32, false, false⟩, ⟨false, false, 0#32, false, true⟩] ∧
    ExecutionEdges 1 0x03000000#32 [.offer 0x03000000#32] := by
  refine ⟨by decide, ⟨rfl, rfl, rfl⟩, by decide, by decide, ⟨rfl, ?_, by decide, by decide, ?_⟩,
    ⟨rfl, ?_, by decide, by decide, ?_⟩⟩ <;> (intro e h; cases h; decide)

/-- The six command statements: a word with a reserved bit under each, and the registers of the examples. -/
theorem test_witness_commands :
    ((0x01010000#32 : Word).extractLsb' 24 8 = 0x01#8 ∧ (0x01010000#32 : Word).extractLsb' 16 8 ≠ 0#8) ∧
    ((0x02800000#32 : Word).extractLsb' 24 8 = 0x02#8 ∧ (0x02800000#32 : Word).extractLsb' 8 16 ≠ 0#16) ∧
    ((0x03000001#32 : Word).extractLsb' 24 8 = 0x03#8 ∧ (0x03000001#32 : Word).extractLsb' 0 24 ≠ 0#24) ∧
    ((0x04800000#32 : Word).extractLsb' 24 8 = 0x04#8 ∧ (0x04800000#32 : Word).extractLsb' 0 24 ≠ 0#24) ∧
    ((0x05FF1234#32 : Word).extractLsb' 24 8 = 0x05#8 ∧ (0x05FF1234#32 : Word).extractLsb' 16 8 ≠ 0#8) ∧
    ((0x06000100#32 : Word).extractLsb' 24 8 = 0x06#8 ∧ (0x06000100#32 : Word).extractLsb' 8 16 ≠ 0#16) ∧
    (withCrc 0xBEEF#16).crc = 0xBEEF#16 ∧ (withCrc 0x0000#16).crc = 0x0000#16 := by decide

/-- ReadReturnsCrc and FinalReturnsComplement: the register after "123456789" is met, and the commands
answer next states. -/
theorem test_witness_read_final :
    (withCrc (compute 0x0000#16 [0x31#8, 0x32#8, 0x33#8, 0x34#8, 0x35#8, 0x36#8, 0x37#8, 0x38#8, 0x39#8])).crc =
      compute 0x0000#16 [0x31#8, 0x32#8, 0x33#8, 0x34#8, 0x35#8, 0x36#8, 0x37#8, 0x38#8, 0x39#8] ∧
    exec .read (withCrc 1#16) = .next { withCrc 1#16 with pending := some ⟨1#16, false⟩ } ∧
    exec (.load 0x0000#16) (withCrc 1#16) =
      .next { withCrc 0#16 with pending := some ⟨0x0000#16, false⟩ } := ⟨withCrc_crc _, rfl, rfl⟩

/-- TableIsLinear, StepIsLinearBijection, BitFlipChangesChecksum, SerialEngineReachesStep: operands at the
ends of their ranges. -/
theorem test_witness_arithmetic : romRead 0xFF#8 = romRead 0xFF#8 ∧ (0xFF#8 : Byte) ≠ 0x00#8 ∧ 7 < 8 ∧
    ([0x31#8] : List Byte).length = ([0x80#8] : List Byte).length ∧ 8 ≤ 8 ∧ 8 ≤ 9 := by decide

/-- OneInFlightKept, TranscriptKept and SerialEngineKept: a state in the middle of a BYTE meets the
invariants, and its step answers a next state. -/
theorem test_witness_invariants : inByte.OneInFlight ∧ inByte.TranscriptAgrees ∧ inByte.SerialAgrees ∧
    step inByte = .next { inByte with
      crc := 0xB201#16, pending := some ⟨0x0000#16, false⟩, executing := none, schedule := [] } := by
  refine ⟨.inr rfl, fun _ => ⟨.inr rfl, ?_, by decide⟩, ?_, by rfl⟩
  · intro ex h; cases h; rfl
  · intro ex h; cases h; exact ⟨⟨7, 0x6200#16⟩, by decide, by decide, by decide⟩

/-- A state with a response pending and one delivered meets the transcript's invariant. -/
theorem test_witness_transcript : holding.TranscriptAgrees := by
  refine fun _ => ⟨.inl rfl, ?_, by decide⟩
  intro ex h; cases h

/-- OnlyLoadByteResetWriteCrc: a command and a step that change `crc`. -/
theorem test_witness_crc_writers :
    exec (.load 1#16) (withCrc 0#16) = .next { withCrc 1#16 with pending := some ⟨0x0000#16, false⟩ } ∧
    (withCrc 1#16).crc ≠ (withCrc 0#16).crc ∧
    step { withCrc 1#16 with schedule := [.edge .resetting] } = .next (withCrc 0#16) := by
  refine ⟨rfl, by decide, rfl⟩

/-- OnlyLoadByteResetWriteCrc: a loss of power that changes `crc`, whatever value is drawn. -/
theorem test_witness_crc_power_loss : ∃ t,
    step { withCrc (Config.unresetCrc 0 + 1#16) with schedule := [.powerLoss] } = .next t ∧
    t.crc ≠ Config.unresetCrc 0 + 1#16 := by
  refine ⟨_, rfl, ?_⟩
  show Config.unresetCrc 0 ≠ Config.unresetCrc 0 + 1#16
  generalize Config.unresetCrc 0 = v
  bv_omega

/-- IllegalCommandLeavesNoTrace. -/
theorem test_witness_no_trace : IllegalWord .reservedNonzero 0x02000132#32 := by
  unfold IllegalWord; decide

/-- ObservationIndependentOfTiming: the same word with completion at once and one edge later. -/
theorem test_witness_timing :
    ∃ s s', steps 2 { State.reset with schedule := [.edge (.offer 0x03000000#32), .edge .take] } = .next s ∧
      steps 3 { State.reset with schedule :=
        [.edge ⟨false, true, 0x03000000#32, false, false⟩, .edge ⟨false, false, 0#32, false, true⟩, .edge .take] } =
        .next s' ∧
      s.Ready ∧ s'.Ready ∧ s.accepted = s'.accepted :=
  ⟨_, _, rfl, rfl, ⟨rfl, rfl, rfl⟩, ⟨rfl, rfl, rfl⟩, rfl⟩

/-- AssemblerEmitsWords and PseudoInstructionsExpand. -/
theorem test_witness_assembler : ('1' : Char).toNat < 128 ∧ 128 ≤ ('é' : Char).toNat ∧
    Asm.assembleLine (.byte (.num 0x31)) = .ok [0x02000031#32] ∧
    Asm.assembleLine (.bytes [.chr '2']) = .ok [0x02000032#32] := by decide

end Sys2Proof.Tests
end

section
/-! PROOFS. The register as a polynomial over GF(2) modulo the generator (00_scope.md R1, R6,
10_state.md R22): an iteration doubles a number and its register together, a byte is
added to both, so the dividend of a message stays congruent to `compute`. -/

namespace Sys2Proof.Machine

/-! ### XOR and shifts on numbers -/

theorem two_pow_mul_xor (n a b : Nat) : 2 ^ n * (a ^^^ b) = 2 ^ n * a ^^^ 2 ^ n * b := by
  simpa only [Nat.shiftLeft_eq, Nat.mul_comm] using Nat.shiftLeft_xor_distrib (a := a) (b := b) (i := n)

/-- Adding below the lowest set bit carries nothing. -/
theorem two_pow_mul_add_eq_xor {n b : Nat} (a : Nat) (hb : b < 2 ^ n) :
    2 ^ n * a + b = 2 ^ n * a ^^^ b := by
  refine Nat.eq_of_testBit_eq fun j => ?_
  rw [Nat.testBit_two_pow_mul_add a hb, Nat.testBit_xor, Nat.testBit_two_pow_mul]
  by_cases hj : j < n
  · simp [hj, Nat.not_le.mpr hj]
  · have hle : n ≤ j := Nat.le_of_not_lt hj
    have hbit : b.testBit j = false :=
      Nat.testBit_lt_two_pow (hb.trans_le (Nat.pow_le_pow_right (by decide) hle))
    simp [hj, hle, hbit]

/-! ### The helpers of the statement, one digit at a time -/

theorem carrylessMul_concat (q : List Bool) (bit : Bool) (g : Nat) :
    carrylessMul (q ++ [bit]) g = 2 * carrylessMul q g ^^^ (if bit then g else 0) := by
  simp [carrylessMul]

theorem messageNat_concat (bs : List Byte) (b : Byte) :
    messageNat (bs ++ [b]) = 2 ^ 8 * messageNat bs ^^^ b.toNat := by
  rw [← two_pow_mul_add_eq_xor _ b.isLt]
  simp [messageNat]

theorem byteInHigh_toNat (b : Byte) : (byteInHigh b).toNat = 2 ^ 8 * b.toNat := by
  have := b.isLt
  simp only [byteInHigh, BitVec.toNat_shiftLeft, BitVec.toNat_setWidth, Nat.shiftLeft_eq]
  omega

/-! ### Congruence modulo the generator -/

/-- The number `a`, as a polynomial over GF(2), differs from the register `x` by a multiple of the
generator 0x13D65 (R6). -/
def CongruentModGenerator (a : Nat) (x : Half) : Prop :=
  ∃ q : List Bool, a = carrylessMul q 0x13D65 ^^^ x.toNat

/-- One iteration of R80 doubles, and removes the generator if bit 16 came up. -/
theorem two_mul_toNat_eq_xor_shiftXor (x : Half) :
    2 * x.toNat = (if x.getLsbD 15 then 0x13D65 else 0) ^^^ (shiftXor x).toNat := by
  have hx := x.isLt
  have hshift : (x <<< 1).toNat = 2 * x.toNat % 2 ^ 16 := by
    rw [BitVec.toNat_shiftLeft, Nat.shiftLeft_eq, Nat.mul_comm]
  have htop : x.getLsbD 15 = decide (2 ^ 15 ≤ x.toNat) :=
    (BitVec.msb_eq_getLsbD_last x).symm.trans (BitVec.msb_eq_decide x)
  unfold shiftXor
  by_cases h : 2 ^ 15 ≤ x.toNat
  · simp only [htop, h, decide_true, if_true, BitVec.toNat_xor]
    have hcarry : 2 * x.toNat = 2 ^ 16 * 1 + (x <<< 1).toNat := by omega
    have hgen : 0x13D65 = 2 ^ 16 * 1 ^^^ Config.poly.toNat := by decide
    rw [hcarry, two_pow_mul_add_eq_xor 1 (x <<< 1).isLt, hgen, Nat.xor_comm (x <<< 1).toNat,
      Nat.xor_assoc, Nat.xor_xor_cancel_left]
  · simp only [htop, h, decide_false, Bool.false_eq_true, if_false, Nat.zero_xor]
    omega

namespace CongruentModGenerator

theorem self (x : Half) : CongruentModGenerator x.toNat x :=
  ⟨[], by simp [carrylessMul]⟩

variable {a : Nat} {x : Half}

theorem xor (h : CongruentModGenerator a x) (y : Half) :
    CongruentModGenerator (a ^^^ y.toNat) (x ^^^ y) := by
  obtain ⟨q, rfl⟩ := h
  exact ⟨q, by rw [BitVec.toNat_xor, Nat.xor_assoc]⟩

/-- The bit that an iteration shifts out is the quotient's next digit. -/
theorem two_mul_shiftXor (h : CongruentModGenerator a x) :
    CongruentModGenerator (2 * a) (shiftXor x) := by
  obtain ⟨q, rfl⟩ := h
  refine ⟨q ++ [x.getLsbD 15], ?_⟩
  rw [carrylessMul_concat, Nat.xor_assoc, ← two_mul_toNat_eq_xor_shiftXor]
  exact two_pow_mul_xor 1 _ _

theorem two_pow_mul_shiftXorN (h : CongruentModGenerator a x) (n : Nat) :
    CongruentModGenerator (2 ^ n * a) (shiftXorN n x) := by
  induction n with
  | zero => simpa [shiftXorN] using h
  | succ n ih =>
    rw [shiftXorN_succ, Nat.pow_succ', Nat.mul_assoc]
    exact ih.two_mul_shiftXor

theorem feed_byteStep (h : CongruentModGenerator a x) (b : Byte) :
    CongruentModGenerator (2 ^ 8 * (a ^^^ 2 ^ 8 * b.toNat)) (byteStep x b) := by
  rw [← byteInHigh_toNat]
  exact (h.xor (byteInHigh b)).two_pow_mul_shiftXorN 8

end CongruentModGenerator

/-- The dividend of R1: the register moved up by the message's length, with the message moved up by 16. -/
def dividend (r : Half) (bs : List Byte) : Nat :=
  (r.toNat * 2 ^ (8 * bs.length)) ^^^ (messageNat bs * 2 ^ 16)

@[simp] theorem dividend_nil (r : Half) : dividend r [] = r.toNat := by
  simp [dividend, messageNat]

/-- A further byte moves the dividend up by 8 and meets it in the high half of the register (R41(a)). -/
theorem dividend_concat (r : Half) (bs : List Byte) (b : Byte) :
    dividend r (bs ++ [b]) = 2 ^ 8 * (dividend r bs ^^^ 2 ^ 8 * b.toNat) := by
  have hlen : r.toNat * 2 ^ (8 * (bs ++ [b]).length) = 2 ^ 8 * (r.toNat * 2 ^ (8 * bs.length)) := by
    rw [List.length_append, List.length_singleton, Nat.mul_succ, Nat.pow_add]
    ring
  have hmsg : messageNat (bs ++ [b]) * 2 ^ 16 =
      2 ^ 8 * (messageNat bs * 2 ^ 16) ^^^ 2 ^ 8 * (2 ^ 8 * b.toNat) := by
    rw [messageNat_concat, Nat.mul_comm, two_pow_mul_xor]
    congr 1 <;> ring
  rw [dividend, dividend, hlen, hmsg, two_pow_mul_xor, two_pow_mul_xor, Nat.xor_assoc]

theorem dividend_congruent_compute (r : Half) (bs : List Byte) :
    CongruentModGenerator (dividend r bs) (compute r bs) := by
  induction bs using List.reverseRecOn with
  | nil => simpa using CongruentModGenerator.self r
  | append_singleton bs b ih =>
    rw [dividend_concat, compute_append]
    exact ih.feed_byteStep b

end Sys2Proof.Machine

/-- Settles O29: each byte keeps the dividend congruent to the register modulo the generator, by
induction on the message from its end. -/
theorem computeIsPolynomialRemainder : Obligations.ComputeIsPolynomialRemainder :=
  fun r bs => Sys2Proof.Machine.dividend_congruent_compute r bs

end

section
/-! PROOFS. The ports and the state of the block (10_state.md R20, R28, R30, R31): what transfers at an
edge, what a step keeps, and what writes `crc`. -/

namespace Sys2Proof.Machine

/-! ### The output ports and the execution of a word -/

theorem State.outputs_rst (s : State) : s.outputs true = some ⟨false, none⟩ := rfl

theorem State.outputs_uninitialized (s : State) (h : s.initialized = false) : s.outputs false = none := by
  simp [State.outputs, h]

theorem runWord_of_decode_ok {w : Word} {i : Instr} (h : decode w = .ok i) (s : State) :
    runWord w s = exec i s := by
  simp only [runWord, h]

/-! ### The response port -/

@[simp] theorem offerResponse_executing (b : Bool) (r : Response) (s : State) :
    (offerResponse b r s).executing = s.executing := by cases b <;> rfl

@[simp] theorem offerResponse_crc (b : Bool) (r : Response) (s : State) :
    (offerResponse b r s).crc = s.crc := by cases b <;> rfl

@[simp] theorem offerResponse_accepted (b : Bool) (r : Response) (s : State) :
    (offerResponse b r s).accepted = s.accepted := by cases b <;> rfl

/-! ### One edge -/

/-- An edge has a meaning in every state after the first reset (R143, R162). -/
theorem edgeStep_answers (e : Edge) {s : State} (hi : s.initialized = true) :
    ∃ t, edgeStep e s = .next t := by
  cases hr : e.rst with
  | true => exact ⟨_, edgeStep_reset e s hr⟩
  | false =>
    cases hx : s.executing with
    | some ex =>
      cases hf : e.finish with
      | true => exact ⟨_, edgeStep_finish e s ex hr hi hx hf⟩
      | false => exact ⟨_, edgeStep_wait e s ex hr hi hx hf⟩
    | none =>
      cases hp : s.pending with
      | some r => exact ⟨_, edgeStep_pending e s r hr hi hx hp⟩
      | none =>
        cases hv : e.cmdValid with
        | false => exact ⟨_, edgeStep_idle e s hr hi hx hp hv⟩
        | true =>
          cases hf : e.finish with
          | true => exact ⟨_, edgeStep_accept_finish e s hr hi hx hp hv hf⟩
          | false => exact ⟨_, edgeStep_accept_wait e s hr hi hx hp hv hf⟩

section
variable {e : Edge} {s t : State}

/-- A word transfers exactly when it is offered to a ready block (R30 clauses 1 and 4). -/
theorem edgeStep_accepted (hr : e.rst = false) (h : edgeStep e s = .next t) :
    t.accepted = if e.cmdValid && s.cmdReady then s.accepted ++ [e.cmdData] else s.accepted := by
  obtain ⟨hr', -⟩ | ⟨-, -, ⟨ex, hx, -, rfl⟩ | ⟨ex, hx, -, rfl⟩ | ⟨r, hx, hp, rfl⟩ |
    ⟨hx, hp, hv, -, rfl⟩ | ⟨hx, hp, hv, -, rfl⟩ | ⟨hx, hp, hv, rfl⟩⟩ := edgeStep_cases e s t h
  · simp [hr] at hr'
  all_goals simp [State.cmdReady, *]

theorem edgeStep_delivered_of_pending_none (hr : e.rst = false) (h : edgeStep e s = .next t)
    (hp : s.pending = none) : t.delivered = s.delivered := by
  obtain ⟨hr', -⟩ | ⟨-, -, ⟨ex, -, -, rfl⟩ | ⟨ex, -, -, rfl⟩ | ⟨r, -, hp', -⟩ |
    ⟨-, -, -, -, rfl⟩ | ⟨-, -, -, -, rfl⟩ | ⟨-, -, -, rfl⟩⟩ := edgeStep_cases e s t h
  · simp [hr] at hr'
  · rfl
  · rfl
  · simp [hp] at hp'
  all_goals rfl

theorem edgeStep_cmdData_of_not_cmdValid (hv : e.cmdValid = false) (d : Word) (s : State) :
    edgeStep { e with cmdData := d } s = edgeStep e s := by
  simp only [edgeStep, hv, Bool.false_eq_true, if_false]

theorem State.OneInFlight.edgeStep (hs : s.OneInFlight) (h : edgeStep e s = .next t) :
    t.OneInFlight := by
  obtain ⟨-, rfl⟩ | ⟨-, -, ⟨ex, -, -, rfl⟩ | ⟨ex, hx, -, rfl⟩ | ⟨r, hx, -, rfl⟩ |
    ⟨hx, -, -, -, rfl⟩ | ⟨-, hp, -, -, rfl⟩ | ⟨-, -, -, rfl⟩⟩ := edgeStep_cases e s t h
  · exact .inl rfl
  · exact .inl rfl
  · exact .inr (hs.resolve_left (by simp [hx]))
  · exact .inl (by simpa using hx)
  · exact .inl hx
  · exact .inr hp
  · exact hs

end

/-! ### One step -/

/-- A scheduled edge has a meaning in every state after the first reset, and it is the step. -/
theorem step_edge_answers {s : State} {e : Edge} {rest : List HostEvent} (hi : s.initialized = true)
    (hs : s.schedule = .edge e :: rest) :
    ∃ t, step s = .next t ∧ edgeStep e { s with schedule := rest } = .next t := by
  rw [step_edge s e rest hs]
  obtain ⟨t, ht⟩ := edgeStep_answers e (s := { s with schedule := rest }) hi
  exact ⟨t, ht, ht⟩

/-- Every step keeps a predicate that the schedule does not bear on, that a loss of power establishes
and that every edge keeps. -/
theorem step_keeps {P : State → Prop} (power : ∀ s : State, P s.losePower)
    (schedule : ∀ (s : State) (rest : List HostEvent), P s → P { s with schedule := rest })
    (edge : ∀ (e : Edge) (s t : State), P s → edgeStep e s = .next t → P t)
    (s t : State) (hs : P s) (h : step s = .next t) : P t := by
  obtain ⟨rest, -, rfl⟩ | ⟨e, rest, -, he⟩ | ⟨-, he⟩ := step_cases s t h
  · exact power _
  · exact edge e _ t (schedule s rest hs) he
  · exact edge .idle s t hs he

/-- A run and one step after it. -/
theorem steps_then_step {n : Nat} {s t u : State} (h : steps n s = .next t) (hu : step t = .next u) :
    steps (n + 1) s = .next u := by
  rw [steps_add n 1 s t h, steps_succ 0 t u hu, steps_zero]

/-- However many edges the host lets pass without taking the pending response, nothing changes (R30
clause 3). -/
theorem steps_hold (waits : List Edge) (s : State) (rest : List HostEvent) (r : Response)
    (hi : s.initialized = true) (hx : s.executing = none) (hp : s.pending = some r)
    (hs : s.schedule = waits.map .edge ++ rest)
    (hw : ∀ e ∈ waits, e.rst = false ∧ e.rspReady = false) :
    steps waits.length s = .next { s with schedule := rest } := by
  induction waits generalizing s with
  | nil =>
    obtain rfl : s.schedule = rest := hs
    rfl
  | cons e waits ih =>
    obtain ⟨hr, hready⟩ := hw e List.mem_cons_self
    have hs' : s.schedule = .edge e :: (waits.map .edge ++ rest) := hs
    rw [List.length_cons, steps_succ _ _ _ (step_hold s e _ r hs' hr hi hx hp hready)]
    exact ih { s with schedule := waits.map .edge ++ rest } hi hx hp rfl
      fun e he => hw e (List.mem_cons_of_mem _ he)

/-! ### The hidden bit-serial engine -/

theorem SerialEngine.tick_iterate_add (n left : Nat) (x : Half) :
    tick^[n] ⟨left + n, x⟩ = ⟨left, shiftXorN n x⟩ := by
  induction n generalizing x with
  | zero => rfl
  | succ n ih => exact ih (shiftXor x)

theorem SerialEngine.tick_iterate_done (n : Nat) (x : Half) : tick^[n] ⟨0, x⟩ = ⟨0, x⟩ :=
  Function.iterate_fixed rfl n

theorem SerialEngine.tick_iterate_start {n : Nat} (hn : n ≤ 8) (r : Half) (b : Byte) :
    tick^[n] (start r b) = ⟨8 - n, shiftXorN n (r ^^^ byteInHigh b)⟩ := by
  rw [← tick_iterate_add n (8 - n), Nat.sub_add_cancel hn]
  rfl

theorem SerialEngine.tick_left_le (g : SerialEngine) : g.tick.left ≤ g.left := by
  obtain ⟨_ | n, x⟩ := g
  · exact Nat.le_refl 0
  · exact Nat.le_succ n

/-- An iteration leaves where the engine is going unchanged. -/
theorem SerialEngine.shiftXorN_tick (g : SerialEngine) :
    shiftXorN g.tick.left g.tick.value = shiftXorN g.left g.value := by
  obtain ⟨_ | n, x⟩ := g <;> rfl

theorem Execution.start_serial_of_byte {w : Word} {b : Byte} (h : decode w = .ok (.byte b)) (c : Half) :
    (Execution.start c w).serial = some (.start c b) := by
  simp only [Execution.start, h]

theorem Execution.start_serial_of_not_byte {w : Word} (h : ∀ b, decode w ≠ .ok (.byte b)) (c : Half) :
    (Execution.start c w).serial = none := by
  unfold Execution.start
  split
  next b hb => exact absurd hb (h b)
  next => rfl

/-- The invariant of the engine, with the two kinds of word apart. -/
theorem State.serialAgrees_iff (s : State) :
    s.SerialAgrees ↔ ∀ ex, s.executing = some ex →
      (∀ b, decode ex.word = .ok (.byte b) →
        ∃ g, ex.serial = some g ∧ g.left ≤ 8 ∧ shiftXorN g.left g.value = byteStep s.crc b) ∧
      ((∀ b, decode ex.word ≠ .ok (.byte b)) → ex.serial = none) := by
  refine forall₂_congr fun ex _ => ?_
  split
  next b hb => simp [hb]
  next hb => exact ⟨fun h => ⟨fun b hb' => (hb b hb').elim, fun _ => h⟩, fun h => h.2 hb⟩

theorem State.SerialAgrees.of_executing_none {s : State} (h : s.executing = none) : s.SerialAgrees :=
  fun ex hx => by simp [h] at hx

theorem State.serialAgrees_of_start {s : State} {w : Word}
    (hx : s.executing = some (.start s.crc w)) : s.SerialAgrees := by
  rw [serialAgrees_iff]
  rintro _ h
  obtain rfl := Option.some.inj (hx.symm.trans h)
  exact ⟨fun b hb => ⟨.start s.crc b, Execution.start_serial_of_byte hb s.crc, Nat.le_refl 8, rfl⟩,
    fun hb => Execution.start_serial_of_not_byte hb s.crc⟩

theorem State.SerialAgrees.of_tick {s t : State} {ex : Execution} (hs : s.SerialAgrees)
    (hx : s.executing = some ex) (hc : t.crc = s.crc) (ht : t.executing = some ex.tick) :
    t.SerialAgrees := by
  rw [serialAgrees_iff] at hs ⊢
  rintro _ h
  obtain rfl := Option.some.inj (ht.symm.trans h)
  obtain ⟨hbyte, hother⟩ := hs ex hx
  constructor
  · intro b hb
    obtain ⟨g, hg, hleft, hvalue⟩ := hbyte b hb
    exact ⟨g.tick, by simp [hg], g.tick_left_le.trans hleft, by rw [g.shiftXorN_tick, hvalue, hc]⟩
  · intro hb
    simp [hother hb]

theorem State.SerialAgrees.edgeStep {e : Edge} {s t : State} (hs : s.SerialAgrees)
    (h : edgeStep e s = .next t) : t.SerialAgrees := by
  obtain ⟨-, rfl⟩ | ⟨-, -, ⟨ex, -, -, rfl⟩ | ⟨ex, hx, -, rfl⟩ | ⟨r, hx, -, rfl⟩ |
    ⟨hx, -, -, -, rfl⟩ | ⟨-, -, -, -, rfl⟩ | ⟨-, -, -, rfl⟩⟩ := edgeStep_cases e s t h
  · exact .of_executing_none rfl
  · exact .of_executing_none rfl
  · exact hs.of_tick hx rfl rfl
  · exact .of_executing_none (by simpa using hx)
  · exact .of_executing_none hx
  · exact State.serialAgrees_of_start rfl
  · exact hs

/-! ### What writes `crc` -/

/-- The word `w` gives `crc` the value `new`: it is the LOAD of it, or a BYTE whose step it is (R20). -/
def WritesCrc (w : Word) (old new : Half) : Prop :=
  decode w = .ok (.load new) ∨ ∃ b, decode w = .ok (.byte b) ∧ new = byteStep old b

/-- The word `w` is the one that an edge can complete: the one in execution, or the one that a ready
block accepts. -/
def State.CanComplete (s : State) (e : Edge) (w : Word) : Prop :=
  (∃ ex, s.executing = some ex ∧ ex.word = w) ∨ (s.Ready ∧ e.cmdValid = true ∧ e.cmdData = w)

theorem exec_crc_ne {i : Instr} {s t : State} (h : exec i s = .next t) (hc : t.crc ≠ s.crc) :
    i = .load t.crc ∨ ∃ b, i = .byte b ∧ t.crc = byteStep s.crc b := by
  cases i with
  | load v => cases h; exact .inl rfl
  | byte b => cases h; exact .inr ⟨b, rfl, rfl⟩
  | read => cases h; exact absurd rfl hc
  | final => cases h; exact absurd rfl hc
  | finv v => cases h; exact absurd rfl hc
  | tbl k => cases h; exact absurd rfl hc

theorem writesCrc_of_archStep_ne {c : Half} {w : Word} (h : (archStep c w).1 ≠ c) :
    WritesCrc w c (archStep c w).1 := by
  have hrun := runWord_eq w { State.reset with crc := c }
  cases hd : decode w with
  | error e => simp [archStep, hd] at h
  | ok i =>
    rw [runWord_of_decode_ok hd] at hrun
    obtain hload | ⟨b, hbyte, hc⟩ := exec_crc_ne hrun h
    · exact .inl (by rw [hd, hload])
    · exact .inr ⟨b, by rw [hd, hbyte], hc⟩

theorem edgeStep_crc_ne {e : Edge} {s t : State} (h : edgeStep e s = .next t) (hc : t.crc ≠ s.crc) :
    (e.rst = true ∧ t.crc = Config.resetCrc) ∨ ∃ w, s.CanComplete e w ∧ WritesCrc w s.crc t.crc := by
  obtain ⟨hr, rfl⟩ | ⟨-, hi, ⟨ex, hx, -, rfl⟩ | ⟨ex, -, -, rfl⟩ | ⟨r, -, -, rfl⟩ |
    ⟨hx, hp, hv, -, rfl⟩ | ⟨-, -, -, -, rfl⟩ | ⟨-, -, -, rfl⟩⟩ := edgeStep_cases e s t h
  · exact .inl ⟨hr, rfl⟩
  · exact .inr ⟨ex.word, .inl ⟨ex, hx, rfl⟩, writesCrc_of_archStep_ne hc⟩
  · exact absurd rfl hc
  · exact absurd (offerResponse_crc _ r s) hc
  · exact .inr ⟨e.cmdData, .inr ⟨⟨hi, hx, hp⟩, hv, rfl⟩, writesCrc_of_archStep_ne hc⟩
  · exact absurd rfl hc
  · exact absurd rfl hc

end Sys2Proof.Machine

open Sys2Proof Sys2Proof.Machine

/-- Settles O6: `exec` of the decoded command is the execution of the word, and both are the
architectural step. -/
theorem stepRunsDecodedCommand : Obligations.StepRunsDecodedCommand := by
  constructor
  · rintro s e rest i ⟨hi, hx, hp⟩ hs hr hv hf hd
    rw [step_accept_finish s e rest hs hr hi hx hp hv hf, ← runWord_of_decode_ok hd, runWord_eq]
  · intro s ex e rest i hi hx hs hr hf hd
    rw [step_finish s e rest ex hs hr hi hx hf, ← runWord_of_decode_ok hd, runWord_eq]

/-- Settles O12, by the output ports under each level of `rst`. -/
theorem resetStateValues : Obligations.ResetStateValues :=
  ⟨rfl, rfl, rfl, State.reset.outputs_initialized rfl, State.outputs_rst, State.outputs_uninitialized⟩

/-- Settles O15, from what each case of an edge accepts. -/
theorem commandTransfersWhenReady : Obligations.CommandTransfersWhenReady := by
  intro s e rest hi hs hr
  obtain ⟨t, hstep, hedge⟩ := step_edge_answers hi hs
  have haccepted := edgeStep_accepted hr hedge
  exact ⟨t, ⟨s.cmdReady, s.pending⟩, hstep, s.outputs_initialized hi, s.cmdReady_iff, haccepted⟩

/-- Settles O16: a pending response is the only thing in the block, so the edge offers it. -/
theorem responseHeldUntilTaken : Obligations.ResponseHeldUntilTaken := by
  intro s e rest hi hone hs hr
  cases hp : s.pending with
  | some r =>
    have hx : s.executing = none := hone.resolve_right (by simp [hp])
    cases hready : e.rspReady with
    | true => exact ⟨_, step_take s e rest r hs hr hi hx hp hready, by simp⟩
    | false =>
      refine ⟨_, step_hold s e rest r hs hr hi hx hp hready, by simp, ?_, by simp, by simp⟩
      rintro _ ⟨⟩ -
      exact ⟨rfl, hp, rfl⟩
  | none =>
    obtain ⟨t, hstep, hedge⟩ := step_edge_answers hi hs
    have hdelivered := edgeStep_delivered_of_pending_none hr hedge hp
    refine ⟨t, hstep, by simp, by simp, fun _ => hdelivered, fun _ hx hv => ?_⟩
    rw [edgeStep_idle e { s with schedule := rest } hr hi hx hp hv] at hedge
    cases hedge
    exact hp

/-- Settles O17, from the one place where an edge reads `cmd_data`. -/
theorem cmdDataIgnoredWhenInvalid : Obligations.CmdDataIgnoredWhenInvalid := by
  intro s e d rest hv
  rw [step_edge _ e rest rfl, step_edge _ { e with cmdData := d } rest rfl]
  exact (edgeStep_cmdData_of_not_cmdValid hv d _).symm

/-- Settles O18: with nothing scheduled the edge is an idle one too. -/
theorem idleBlockHoldsState : Obligations.IdleBlockHoldsState := by
  constructor
  · rintro s e rest ⟨hi, hx, hp⟩ hs hr hv
    rw [step_edge s e rest hs, edgeStep_idle e { s with schedule := rest } hr hi hx hp hv]
  · rintro s ⟨hi, hx, hp⟩ hs
    rw [step_nil s hs, edgeStep_idle .idle s rfl hi hx hp rfl]

/-- Settles O19, by induction on the edges of waiting. -/
theorem offerWaitsForResponse : Obligations.OfferWaitsForResponse := by
  rintro s r w waits take accept rest hi hx hp hs hw htr htready - - har hav rfl haf
  have hwait := steps_hold waits s _ r hi hx hp hs fun e he => ⟨(hw e he).1, (hw e he).2.1⟩
  have htaken := steps_then_step hwait (step_take _ take _ r rfl htr hi hx hp htready)
  exact ⟨htaken, steps_then_step htaken (step_accept_finish _ accept rest rfl har hi hx rfl hav haf)⟩

/-- Settles O42: each iteration up to the eighth counts down and shifts, and then the engine is at a
fixed point. -/
theorem serialEngineReachesStep : Obligations.SerialEngineReachesStep := by
  refine ⟨fun r b n hn => SerialEngine.tick_iterate_start hn r b, fun r b n hn => ?_⟩
  obtain ⟨m, rfl⟩ := Nat.exists_eq_add_of_le' hn
  rw [Function.iterate_add_apply, SerialEngine.tick_iterate_start (Nat.le_refl 8),
    SerialEngine.tick_iterate_done]
  rfl

/-- Settles O43: nothing is in execution or pending, and no word has been accepted. -/
theorem invariantsHoldAtReset : Obligations.InvariantsHoldAtReset :=
  fun _ => ⟨.inl rfl, fun _ => ⟨.inl rfl, fun _ h => (Option.some_ne_none _ h.symm).elim, rfl⟩,
    .of_executing_none rfl⟩

/-- Settles O44, by the cases of an edge. -/
theorem oneInFlightKept : Obligations.OneInFlightKept :=
  step_keeps (fun _ => .inl rfl) (fun _ _ hs => hs) fun _ _ _ hs h => hs.edgeStep h

/-- Settles O46, by the cases of an edge: a BYTE starts the engine with eight iterations to do, and an
iteration leaves where it is going unchanged. -/
theorem serialEngineKept : Obligations.SerialEngineKept :=
  step_keeps (fun _ => .of_executing_none rfl) (fun _ _ hs => hs) fun _ _ _ hs h => hs.edgeStep h

/-- Settles O47, by the event of the step: an idle edge completes only the command in execution. -/
theorem onlyLoadByteResetWriteCrc : Obligations.OnlyLoadByteResetWriteCrc := by
  refine ⟨fun i s t => exec_crc_ne, fun s t h hc => ?_⟩
  obtain ⟨rest, hs, rfl⟩ | ⟨e, rest, hs, he⟩ | ⟨hs, he⟩ := step_cases s t h
  · exact .inr (.inl ⟨rest, hs, rfl⟩)
  · obtain ⟨hr, hreset⟩ | ⟨w, hex | ⟨hready, hv, hw⟩, hwrites⟩ := edgeStep_crc_ne he hc
    · exact .inl ⟨e, rest, hs, hr, hreset⟩
    · exact .inr (.inr ⟨w, .inl hex, hwrites⟩)
    · exact .inr (.inr ⟨w, .inr ⟨hready, e, rest, hs, hv, hw⟩, hwrites⟩)
  · obtain ⟨hr, -⟩ | ⟨w, hex | ⟨-, hv, -⟩, hwrites⟩ := edgeStep_crc_ne he hc
    · cases hr
    · exact .inr (.inr ⟨w, .inl hex, hwrites⟩)
    · cases hv

end

section
/-! PROOFS. The transcript of a run (20_memory.md R45, R47; 70_reset_and_hazards.md R170): each word
accepted extends the run of the architectural step by one, when it completes. -/

namespace Sys2Proof.Machine

/-- One more word is one more architectural step at the end of the run. -/
theorem archRun_concat {c c' : Half} {ws : List Word} {rs : List Response} (w : Word)
    (h : archRun c ws = (c', rs)) :
    archRun c (ws ++ [w]) = ((archStep c' w).1, rs ++ [(archStep c' w).2]) := by
  rw [archRun_append, h]
  rfl

/-! ### The invariant with no command in execution, and with one -/

section
variable {s : State}

theorem State.transcriptAgrees_iff_of_executing_none (hi : s.initialized = true)
    (hx : s.executing = none) :
    s.TranscriptAgrees ↔
      archRun Config.resetCrc s.accepted = (s.crc, s.delivered ++ s.pending.toList) := by
  simp [State.TranscriptAgrees, State.OneInFlight, State.completed, hi, hx]

theorem State.transcriptAgrees_iff_of_executing {ex : Execution} (hi : s.initialized = true)
    (hx : s.executing = some ex) :
    s.TranscriptAgrees ↔ s.pending = none ∧ ∃ ws, s.accepted = ws ++ [ex.word] ∧
      archRun Config.resetCrc ws = (s.crc, s.delivered) := by
  have hcompleted : s.completed = s.accepted.dropLast := by simp only [State.completed, hx]
  constructor
  · intro hs
    obtain ⟨hone, hlast, hrun⟩ := hs hi
    have hp : s.pending = none := hone.resolve_left (by simp [hx])
    refine ⟨hp, s.accepted.dropLast, ?_, by simpa [hcompleted, hp] using hrun⟩
    exact (List.dropLast_append_getLast? _ (hlast ex hx)).symm
  · rintro ⟨hp, ws, haccepted, hrun⟩ -
    refine ⟨.inr hp, ?_, by simpa [hcompleted, haccepted, hp] using hrun⟩
    rintro _ h
    obtain rfl := Option.some.inj (hx.symm.trans h)
    simp [haccepted]

theorem State.TranscriptAgrees.of_initialized_false (hi : s.initialized = false) :
    s.TranscriptAgrees :=
  fun h => by simp [hi] at h

end

/-! ### One edge -/

/-- A response moves from pending to delivered and stays where it is in the transcript. -/
theorem offerResponse_responses (ready : Bool) {r : Response} {s : State} (hp : s.pending = some r) :
    (offerResponse ready r s).delivered ++ (offerResponse ready r s).pending.toList =
      s.delivered ++ s.pending.toList := by
  cases ready <;> simp [offerResponse, hp]

@[simp] theorem offerResponse_initialized (ready : Bool) (r : Response) (s : State) :
    (offerResponse ready r s).initialized = s.initialized := by cases ready <;> rfl

theorem State.TranscriptAgrees.edgeStep {e : Edge} {s t : State} (hs : s.TranscriptAgrees)
    (h : edgeStep e s = .next t) : t.TranscriptAgrees := by
  obtain ⟨-, rfl⟩ | ⟨-, hi, ⟨ex, hx, -, rfl⟩ | ⟨ex, hx, -, rfl⟩ | ⟨r, hx, hp, rfl⟩ |
    ⟨hx, hp, -, -, rfl⟩ | ⟨hx, hp, -, -, rfl⟩ | ⟨-, -, -, rfl⟩⟩ := edgeStep_cases e s t h
  · -- a reset empties the transcript
    exact Iff.mpr (transcriptAgrees_iff_of_executing_none rfl rfl) rfl
  · -- the command in execution completes: its word is the last one accepted
    obtain ⟨-, ws, haccepted, hrun⟩ := (transcriptAgrees_iff_of_executing hi hx).mp hs
    refine Iff.mpr (transcriptAgrees_iff_of_executing_none hi rfl) ?_
    rw [haccepted]
    exact archRun_concat ex.word hrun
  · -- it stays in execution, with the same word
    exact Iff.mpr (transcriptAgrees_iff_of_executing hi rfl)
      ((transcriptAgrees_iff_of_executing hi hx).mp hs)
  · -- the pending response is offered
    rw [transcriptAgrees_iff_of_executing_none (by simpa using hi) (by simpa using hx),
      offerResponse_responses _ hp]
    simpa using (transcriptAgrees_iff_of_executing_none hi hx).mp hs
  · -- a word is accepted and completes
    have hrun := (transcriptAgrees_iff_of_executing_none hi hx).mp hs
    refine Iff.mpr (transcriptAgrees_iff_of_executing_none hi hx) ?_
    simpa [hp] using archRun_concat e.cmdData hrun
  · -- a word is accepted and stays in execution
    have hrun := (transcriptAgrees_iff_of_executing_none hi hx).mp hs
    exact Iff.mpr (transcriptAgrees_iff_of_executing hi rfl)
      ⟨hp, s.accepted, rfl, by simpa [hp] using hrun⟩
  · exact hs

end Sys2Proof.Machine

open Sys2Proof Sys2Proof.Machine

/-- Settles O45, by the cases of an edge: a word that completes is the last one accepted, and is one
more architectural step at the end of the run. -/
theorem transcriptKept : Obligations.TranscriptKept :=
  step_keeps (fun _ => .of_initialized_false rfl) (fun _ _ hs => hs) fun _ _ _ hs h => hs.edgeStep h

end

section
/-! PROOFS. The decoder and the encoder (30_encoding.md R60 to R65): the decoder by the opcode of a
word, the two as inverses of each other, and the number of words of each kind. -/

namespace Sys2Proof

/-! ### The decoder, by the opcode of the word (R64) -/

section
variable {w : Word}

theorem decode_of_opField_load (h : opField w = 0x01#8) :
    decode w = unlessReserved (rsvI16 w) (.load (imm16Field w)) := by simp [decode, h]

theorem decode_of_opField_byte (h : opField w = 0x02#8) :
    decode w = unlessReserved (rsvI8 w) (.byte (imm8Field w)) := by simp [decode, h]

theorem decode_of_opField_read (h : opField w = 0x03#8) :
    decode w = unlessReserved (rsvN w) .read := by simp [decode, h]

theorem decode_of_opField_final (h : opField w = 0x04#8) :
    decode w = unlessReserved (rsvN w) .final := by simp [decode, h]

theorem decode_of_opField_finv (h : opField w = 0x05#8) :
    decode w = unlessReserved (rsvI16 w) (.finv (imm16Field w)) := by simp [decode, h]

theorem decode_of_opField_tbl (h : opField w = 0x06#8) :
    decode w = unlessReserved (rsvI8 w) (.tbl (imm8Field w)) := by simp [decode, h]

end

/-- The opcodes of the opcode map (R63). -/
def definedOpcodes : Finset Byte := {0x01#8, 0x02#8, 0x03#8, 0x04#8, 0x05#8, 0x06#8}

theorem notMem_definedOpcodes_iff (op : Byte) :
    op ∉ definedOpcodes ↔ op = 0x00#8 ∨ 0x07#8 ≤ op := by
  simp only [definedOpcodes, Finset.mem_insert, Finset.mem_singleton]
  bv_omega

theorem unlessReserved_ne_illegalOpcode {n : Nat} (rsv : BitVec n) (i : Instr) :
    unlessReserved rsv i ≠ .error .illegalOpcode :=
  fun h => nomatch ((unlessReserved_error rsv i _).mp h).2

/-- The opcode alone decides whether a word has an undefined one: a defined opcode leads to the check
of a reserved field, whose answer is never this cause (R64, R65(b)). -/
theorem decode_eq_illegalOpcode_iff (w : Word) :
    decode w = .error .illegalOpcode ↔ opField w ∉ definedOpcodes := by
  unfold decode
  split_ifs <;> simp [*, definedOpcodes, unlessReserved_ne_illegalOpcode]

/-- A reserved field, read as R64 writes it: the error case first. -/
theorem unlessReserved_eq_ite_ne {n : Nat} (rsv : BitVec n) (i : Instr) :
    unlessReserved rsv i = if rsv ≠ 0#n then .error .reservedNonzero else .ok i :=
  (ite_not _ _ _).symm

/-! ### Decoding and encoding are inverse to each other -/

@[simp] theorem decode_encode (i : Instr) : decode (encode i) = .ok i := by
  cases i with
  | load v =>
    exact (decode_of_opField_load (opField_layoutI16 _ v)).trans
      ((unlessReserved_ok _ _ _).mpr ⟨rsvI16_layoutI16 _ v, congrArg _ (imm16Field_layoutI16 _ v)⟩)
  | byte b =>
    exact (decode_of_opField_byte (opField_layoutI8 _ b)).trans
      ((unlessReserved_ok _ _ _).mpr ⟨rsvI8_layoutI8 _ b, congrArg _ (imm8Field_layoutI8 _ b)⟩)
  | read =>
    exact (decode_of_opField_read (opField_layoutN _)).trans
      ((unlessReserved_ok _ _ _).mpr ⟨rsvN_layoutN _, rfl⟩)
  | final =>
    exact (decode_of_opField_final (opField_layoutN _)).trans
      ((unlessReserved_ok _ _ _).mpr ⟨rsvN_layoutN _, rfl⟩)
  | finv v =>
    exact (decode_of_opField_finv (opField_layoutI16 _ v)).trans
      ((unlessReserved_ok _ _ _).mpr ⟨rsvI16_layoutI16 _ v, congrArg _ (imm16Field_layoutI16 _ v)⟩)
  | tbl k =>
    exact (decode_of_opField_tbl (opField_layoutI8 _ k)).trans
      ((unlessReserved_ok _ _ _).mpr ⟨rsvI8_layoutI8 _ k, congrArg _ (imm8Field_layoutI8 _ k)⟩)

/-- A legal word has the opcode of its command and a zero reserved field, so it is put together again
from its fields. -/
theorem encode_of_decode {w : Word} {i : Instr} (h : decode w = .ok i) : encode i = w := by
  unfold decode at h
  split_ifs at h with hop hop hop hop hop hop
  all_goals
    obtain ⟨hr, rfl⟩ := (unlessReserved_ok _ _ _).mp h
    rw [encode, ← hop]
  · exact layoutI16_fields w hr
  · exact layoutI8_fields w hr
  · exact layoutN_fields w hr
  · exact layoutN_fields w hr
  · exact layoutI16_fields w hr
  · exact layoutI8_fields w hr

theorem decode_eq_ok_iff (w : Word) (i : Instr) : decode w = .ok i ↔ w = encode i :=
  ⟨fun h => (encode_of_decode h).symm, fun h => h ▸ decode_encode i⟩

theorem encode_injective : Function.Injective encode := fun i j h => by
  simpa using congrArg decode h

/-! ### The number of words of each kind (R65) -/

theorem natCard_bitVec (n : Nat) : Nat.card (BitVec n) = 2 ^ n :=
  Nat.card_eq_of_equiv_fin BitVec.equivFin.toEquiv

/-- A family of distinct commands has as many words as members. -/
theorem natCard_decode_eq_ok {α : Type} {f : α → Instr} (hf : Function.Injective f) :
    Nat.card { w : Word // ∃ a, decode w = .ok (f a) } = Nat.card α := by
  have hrange (w : Word) : (∃ a, decode w = .ok (f a)) ↔ w ∈ Set.range (encode ∘ f) :=
    exists_congr fun a => (decode_eq_ok_iff w (f a)).trans eq_comm
  rw [Nat.card_congr (Equiv.subtypeEquivRight hrange)]
  exact Nat.card_range_of_injective (encode_injective.comp hf)

theorem natCard_decode_eq_ok_single (i : Instr) : Nat.card { w : Word // decode w = .ok i } = 1 := by
  simp [decode_eq_ok_iff]

/-- The commands, by opcode, are their operands. -/
def Instr.equivOperands : Instr ≃ (Half ⊕ Byte) ⊕ (Unit ⊕ Unit) ⊕ (Half ⊕ Byte) where
  toFun
    | .load v => .inl (.inl v)
    | .byte b => .inl (.inr b)
    | .read => .inr (.inl (.inl ()))
    | .final => .inr (.inl (.inr ()))
    | .finv v => .inr (.inr (.inl v))
    | .tbl k => .inr (.inr (.inr k))
  invFun
    | .inl (.inl v) => .load v
    | .inl (.inr b) => .byte b
    | .inr (.inl (.inl ())) => .read
    | .inr (.inl (.inr ())) => .final
    | .inr (.inr (.inl v)) => .finv v
    | .inr (.inr (.inr k)) => .tbl k
  left_inv i := by cases i <;> rfl
  right_inv := by rintro ((v | b) | (⟨⟩ | ⟨⟩) | (v | k)) <;> rfl

theorem natCard_instr : Nat.card Instr = 131586 := by
  rw [Nat.card_congr Instr.equivOperands]
  simp only [Nat.card_sum, natCard_bitVec, Nat.card_unique]
  rfl

theorem natCard_legalWord : Nat.card { w : Word // LegalWord w } = 131586 :=
  (natCard_decode_eq_ok Function.injective_id).trans natCard_instr

/-- A word is its opcode and the 24 bits below it. -/
def wordEquivFields : Word ≃ Byte × BitVec 24 where
  toFun w := (opField w, rsvN w)
  invFun p := p.1 ++ p.2
  left_inv _ := BitVec.extractLsb'_append_extractLsb'
  right_inv _ := Prod.ext BitVec.extractLsb'_append_eq_left BitVec.extractLsb'_append_eq_right

theorem natCard_undefinedOpcodes : Nat.card { op : Byte // op ∉ definedOpcodes } = 250 := by
  rw [Nat.subtype_card definedOpcodesᶜ fun _ => Finset.mem_compl, Finset.card_compl,
    ← Nat.card_eq_fintype_card, natCard_bitVec]
  rfl

theorem natCard_illegalOpcode :
    Nat.card { w : Word // IllegalWord .illegalOpcode w } = 250 * 2 ^ 24 := by
  have hfields (w : Word) : IllegalWord .illegalOpcode w ↔ (wordEquivFields w).1 ∉ definedOpcodes :=
    decode_eq_illegalOpcode_iff w
  rw [Nat.card_congr (wordEquivFields.subtypeEquiv (q := fun p => p.1 ∉ definedOpcodes) hfields),
    Nat.card_congr (Equiv.prodSubtypeFstEquivSubtypeProd (p := fun op => op ∉ definedOpcodes)),
    Nat.card_prod, natCard_undefinedOpcodes, natCard_bitVec]

theorem not_legalWord_iff (w : Word) :
    ¬ LegalWord w ↔ IllegalWord .illegalOpcode w ∨ IllegalWord .reservedNonzero w := by
  unfold LegalWord IllegalWord
  cases decode w with
  | ok i => simp
  | error c => cases c <;> simp

/-- Every word is legal or illegal with one of the two causes. -/
theorem natCard_legal_add_illegal :
    Nat.card { w : Word // LegalWord w } + (Nat.card { w : Word // IllegalWord .illegalOpcode w } +
      Nat.card { w : Word // IllegalWord .reservedNonzero w }) = 2 ^ 32 := by
  have hcompl : { w | LegalWord w }ᶜ =
      { w | IllegalWord .illegalOpcode w } ∪ { w | IllegalWord .reservedNonzero w } :=
    Set.ext not_legalWord_iff
  have hdisjoint :
      Disjoint { w | IllegalWord .illegalOpcode w } { w | IllegalWord .reservedNonzero w } :=
    Set.disjoint_left.mpr fun w h h' => by simpa using h.symm.trans h'
  have hsum := Set.ncard_add_ncard_compl { w | LegalWord w }
  rwa [hcompl, Set.ncard_union_eq hdisjoint, natCard_bitVec] at hsum

theorem natCard_reservedNonzero :
    Nat.card { w : Word // IllegalWord .reservedNonzero w } = 100531710 := by
  have hsum := natCard_legal_add_illegal
  rw [natCard_legalWord, natCard_illegalOpcode] at hsum
  omega

namespace Machine

theorem runWord_of_decode_error {w : Word} {c : IllegalCause} (h : decode w = .error c) (s : State) :
    runWord w s = .next { s with pending := some ⟨c.code, true⟩ } := by
  simp only [runWord, h]
  rfl

end Machine

end Sys2Proof

open Sys2Proof Sys2Proof.Machine

/-- Settles O1, by the command: its word has its opcode, a zero reserved field and its operand. -/
theorem decodeInvertsEncode : Obligations.DecodeInvertsEncode :=
  fun i _ => decode_encode i

/-- Settles O2: a legal word is put together again from its fields. -/
theorem encodeInvertsDecode : Obligations.EncodeInvertsDecode :=
  fun _ _ => encode_of_decode

/-- Settles O3, by the opcode. -/
theorem decoderFollowsOpcodeMap : Obligations.DecoderFollowsOpcodeMap := by
  intro w
  exact ⟨fun h => (decode_of_opField_load h).trans (unlessReserved_eq_ite_ne _ _),
    fun h => (decode_of_opField_byte h).trans (unlessReserved_eq_ite_ne _ _),
    fun h => (decode_of_opField_read h).trans (unlessReserved_eq_ite_ne _ _),
    fun h => (decode_of_opField_final h).trans (unlessReserved_eq_ite_ne _ _),
    fun h => (decode_of_opField_finv h).trans (unlessReserved_eq_ite_ne _ _),
    fun h => (decode_of_opField_tbl h).trans (unlessReserved_eq_ite_ne _ _),
    fun h => (decode_eq_illegalOpcode_iff w).mpr ((notMem_definedOpcodes_iff _).mpr h), rfl, rfl⟩

/-- Settles O4: a kind of legal word has as many words as operands, an undefined opcode leaves 24 bits
free, and the words left over are those with a reserved bit set. -/
theorem wordsOfEachKind : Obligations.WordsOfEachKind :=
  ⟨(natCard_decode_eq_ok fun _ _ => Instr.load.inj).trans (natCard_bitVec 16),
    (natCard_decode_eq_ok fun _ _ => Instr.finv.inj).trans (natCard_bitVec 16),
    (natCard_decode_eq_ok fun _ _ => Instr.byte.inj).trans (natCard_bitVec 8),
    (natCard_decode_eq_ok fun _ _ => Instr.tbl.inj).trans (natCard_bitVec 8),
    natCard_decode_eq_ok_single .read, natCard_decode_eq_ok_single .final,
    natCard_legalWord, natCard_illegalOpcode, natCard_reservedNonzero,
    fun _ _ s h => runWord_of_decode_error h s⟩

/-- Settles O5: each example is the word of its command. -/
theorem exampleWordsDecode : Obligations.ExampleWordsDecode :=
  ⟨decode_encode (.load 0x1234#16), decode_encode (.byte 0x31#8), decode_encode .read,
    decode_encode .final, decode_encode (.finv 0x1234#16), decode_encode (.tbl 0x80#8)⟩

end

section
/-! PROOFS. The architectural step (30_encoding.md R67, R70): what it does with the word of each
command, with either engine (40_accumulate.md R84), and over the command sequences of the source's
operations. -/

namespace Sys2Proof.Machine

/-! ### The step of each command's word -/

section
variable (c v : Half) (b : Byte)

@[simp] theorem archStep_encode_load : archStep c (encode (.load v)) = (v, ⟨0x0000#16, false⟩) := by
  simp [archStep]

@[simp] theorem archStep_encode_byte :
    archStep c (encode (.byte b)) = (byteStep c b, ⟨0x0000#16, false⟩) := by
  simp [archStep]

@[simp] theorem archStep_encode_read : archStep c (encode .read) = (c, ⟨c, false⟩) := by
  simp [archStep]

@[simp] theorem archStep_encode_final : archStep c (encode .final) = (c, ⟨finalize c, false⟩) := by
  simp [archStep, finalize_eq_not]

@[simp] theorem archStep_encode_finv : archStep c (encode (.finv v)) = (c, ⟨finalize v, false⟩) := by
  simp [archStep, finalize_eq_not]

@[simp] theorem archStep_encode_tbl : archStep c (encode (.tbl b)) = (c, ⟨romRead b, false⟩) := by
  simp [archStep]

end

/-! ### Runs of commands -/

@[simp] theorem archRun_nil (c : Half) : archRun c [] = (c, []) := rfl

theorem archRun_cons (c : Half) (w : Word) (ws : List Word) :
    archRun c (w :: ws) =
      ((archRun (archStep c w).1 ws).1, (archStep c w).2 :: (archRun (archStep c w).1 ws).2) := rfl

/-- A run of BYTE commands computes, with an empty response to each (R10, R87). -/
theorem archRun_byteWords (c : Half) (bs : List Byte) :
    archRun c (byteWords bs) = (compute c bs, List.replicate bs.length ⟨0x0000#16, false⟩) := by
  induction bs generalizing c with
  | nil => rfl
  | cons b bs ih =>
    have hcons : byteWords (b :: bs) = encode (.byte b) :: byteWords bs := rfl
    simp [hcons, archRun_cons, ih, List.replicate_succ]

/-- The shape of R70: a register is loaded, bytes are fed, and a last command asks for the result. -/
theorem archRun_load_byteWords (c r : Half) (bs : List Byte) (w : Word) :
    archRun c (encode (.load r) :: (byteWords bs ++ [w])) =
      ((archStep (compute r bs) w).1,
        List.replicate (bs.length + 1) ⟨0x0000#16, false⟩ ++ [(archStep (compute r bs) w).2]) := by
  simp [archRun_cons, archRun_append, archRun_byteWords, List.replicate_succ]

/-! ### The two engines (R84) -/

theorem shiftXor_eq_shiftLeft {x : Half} (h : x.toNat * 2 < 2 ^ 16) : shiftXor x = x <<< 1 := by
  have hmsb : x.getLsbD 15 = false :=
    (BitVec.msb_eq_getLsbD_last x).symm.trans (BitVec.msb_eq_false_iff_two_mul_lt.mpr (by omega))
  rw [shiftXor, hmsb, if_neg Bool.false_ne_true]

/-- Iterations that shift out only zeros are a shift. -/
theorem shiftXorN_eq_shiftLeft {n : Nat} {x : Half} (h : x.toNat * 2 ^ n < 2 ^ 16) :
    shiftXorN n x = x <<< n := by
  induction n generalizing x with
  | zero => simp [shiftXorN]
  | succ n ih =>
    have htwo : x.toNat * 2 < 2 ^ 16 :=
      (Nat.mul_le_mul_left _ (Nat.le_self_pow n.succ_ne_zero 2)).trans_lt h
    have hx : (x <<< 1).toNat = x.toNat * 2 := by
      rw [BitVec.toNat_shiftLeft, Nat.shiftLeft_eq, pow_one, Nat.mod_eq_of_lt htwo]
    rw [shiftXorN, shiftXor_eq_shiftLeft htwo, ih (by rwa [hx, Nat.mul_assoc, ← Nat.pow_succ']),
      ← BitVec.shiftLeft_add, Nat.add_comm]

/-- A byte in the high half of the register is shifted out whole, and leaves its table entry (R100). -/
theorem shiftXorN_byteInHigh (k : Byte) : shiftXorN 8 (byteInHigh k) = romRead k := by
  revert k
  decide

/-- A byte in the low half of the register is moved up unchanged. -/
theorem shiftXorN_lowByte (r : Half) : shiftXorN 8 ((lowByte r).setWidth 16) = r <<< 8 := by
  have hlow := (lowByte r).isLt
  rw [shiftXorN_eq_shiftLeft (by rw [BitVec.toNat_setWidth]; omega)]
  ext i hi
  by_cases h : i < 8
  · simp [h]
  · have hsub : i - 8 < 8 := by omega
    simp [lowByte, h, hsub, BitVec.getLsbD_eq_getElem (i := i - 8) (by omega : i - 8 < 16)]

/-- XORing a byte in leaves the low half of the register and makes the high half the table index (R81). -/
theorem xor_byteInHigh (r : Half) (b : Byte) :
    r ^^^ byteInHigh b = (lowByte r).setWidth 16 ^^^ byteInHigh (tableIndex r b) := by
  ext i hi
  by_cases h : i < 8
  · simp [byteInHigh, lowByte, h, BitVec.getLsbD_eq_getElem hi]
  · have hsub : i - 8 < 8 := by omega
    have hadd : 8 + (i - 8) = i := by omega
    simp [byteInHigh, lowByte, tableIndex, h, hsub, hadd, BitVec.getLsbD_eq_getElem hi]

theorem stepTab_eq_stepBs (r : Half) (b : Byte) : stepTab r b = stepBs r b := by
  rw [stepBs, xor_byteInHigh, shiftXorN_xor, shiftXorN_lowByte, shiftXorN_byteInHigh, stepTab]

theorem engineStep_eq_byteStep (eng : Config.Engine) : engineStep eng = byteStep := by
  cases eng with
  | bitSerial => rfl
  | table => exact funext₂ stepTab_eq_stepBs

end Sys2Proof.Machine

open Sys2Proof Sys2Proof.Machine

/-- Settles O7: both edges at which a word completes do the architectural step. -/
theorem commandDoesArchitecturalStep : Obligations.CommandDoesArchitecturalStep :=
  ⟨fun s e rest ⟨hi, hx, hp⟩ hs hr hv hf => step_accept_finish s e rest hs hr hi hx hp hv hf,
    fun s ex e rest hi hx hs hr hf => step_finish s e rest ex hs hr hi hx hf⟩

/-- Settles O8, by what the word decodes to; BYTE by the equivalence of the engines. -/
theorem executedWordFollowsStepTable : Obligations.ExecutedWordFollowsStepTable := by
  intro eng w s
  cases hd : decode w with
  | error c =>
    rw [runWord_of_decode_error hd]
    cases c <;> rfl
  | ok i =>
    rw [runWord_of_decode_ok hd]
    cases i with
    | load v => exact exec_load v s
    | byte b => rw [exec_byte, engineStep_eq_byteStep]
    | read => exact exec_read s
    | final => rw [exec_final, finalize_eq_not]
    | finv v => rw [exec_finv, finalize_eq_not]
    | tbl k => exact exec_tbl k s

/-- Settles O36, by the run of the BYTE commands in the middle of each sequence. -/
theorem apiSequencesCompute : Obligations.ApiSequencesCompute := by
  refine ⟨fun c initial data => ?_, fun c data => ?_, fun c v => ?_⟩
  · rw [crcComputeWords, archRun_load_byteWords, archStep_encode_read]
  · rw [crcComputeFinalizeWords, archRun_load_byteWords, archStep_encode_final]
  · rw [crcFinalizeWords, archRun_cons, archStep_encode_finv, archRun_nil]

end

section
/-! PROOFS. The assembler (30_encoding.md R68, R69). -/

namespace Sys2Proof.Asm

section
variable {l : Line}

theorem assembleLine_of_wellFormed (h : l.wellFormed = true) : assembleLine l = .ok l.words :=
  if_pos h

theorem assembleLine_of_not_wellFormed (h : l.wellFormed = false) :
    assembleLine l = .error .doesNotFit := by
  simp [assembleLine, h]

/-- A line has words exactly when its literals fit, and then they are its words. -/
theorem assembleLine_eq_ok_iff (ws : List Word) :
    assembleLine l = .ok ws ↔ l.wellFormed = true ∧ l.words = ws := by
  cases h : l.wellFormed <;> simp [assembleLine, h]

theorem assembleLine_congr {m : Line} (hfits : l.wellFormed = m.wellFormed)
    (hwords : l.words = m.words) : assembleLine l = assembleLine m := by
  rw [assembleLine, assembleLine, hfits, hwords]

/-- A line whose one check is a bound on a number. -/
theorem assembleLine_eq_ite {p : Prop} [Decidable p] (h : l.wellFormed = decide p) :
    assembleLine l = if p then .ok l.words else .error .doesNotFit := by
  simp [assembleLine, h]

end

end Sys2Proof.Asm

open Sys2Proof Sys2Proof.Asm

/-- Settles O51: each check is the bound of the field. -/
theorem assemblerEmitsWords : Obligations.AssemblerEmitsWords :=
  ⟨fun _ => assembleLine_eq_ite rfl, fun _ => assembleLine_eq_ite rfl,
    fun _ => assembleLine_eq_ite rfl, fun _ => assembleLine_eq_ite rfl, rfl, rfl,
    fun _ => assembleLine_eq_ite rfl,
    fun _ h => assembleLine_of_wellFormed (decide_eq_true h),
    fun _ h => assembleLine_of_wellFormed (decide_eq_true h),
    fun _ h => ⟨assembleLine_of_not_wellFormed (decide_eq_false h.not_gt),
      assembleLine_of_not_wellFormed (decide_eq_false h.not_gt)⟩,
    fun _ => ⟨rfl, rfl, rfl⟩⟩

/-- Settles O52: a pseudo-instruction has the check and the words of its expansion. -/
theorem pseudoInstructionsExpand : Obligations.PseudoInstructionsExpand := by
  refine ⟨rfl, fun _ => rfl, rfl, fun _ => rfl, rfl, fun b bs ws rest hb hbs => ?_, fun text => ?_⟩
  · obtain ⟨hfits, rfl⟩ := (assembleLine_eq_ok_iff ws).mp hb
    obtain ⟨hall, rfl⟩ := (assembleLine_eq_ok_iff rest).mp hbs
    exact assembleLine_of_wellFormed (Bool.and_eq_true_iff.mpr ⟨hfits, hall⟩)
  · refine assembleLine_congr ?_ ?_
    · rw [Line.wellFormed, Line.wellFormed, List.all_map]
      rfl
    · rw [Line.words, Line.words, List.map_map]
      rfl

end

section
/-! PROOFS. The accumulator (40_accumulate.md R80 to R90): the step is linear over XOR and loses
nothing of the register, and with it the laws of LOAD, BYTE and READ. -/

namespace Sys2Proof

/-! ### The words of a layout, by match and mask -/

/-- A word is put together from `hi` and `lo` when its high bits match `hi` under the mask and its low
bits are `lo`. -/
theorem eq_append_iff_and_mask {m n : Nat} (w : BitVec (m + n)) (hi : BitVec m) (lo : BitVec n) :
    w = hi ++ lo ↔ w &&& (BitVec.allOnes m ++ 0#n) = hi ++ 0#n ∧ lo = w.extractLsb' 0 n := by
  constructor
  · rintro rfl
    exact ⟨by rw [BitVec.and_append, BitVec.and_allOnes, BitVec.and_zero],
      BitVec.extractLsb'_append_eq_right.symm⟩
  · rintro ⟨hmask, rfl⟩
    refine BitVec.eq_of_getLsbD_eq fun i hlt => ?_
    by_cases h : i < n
    · simp [BitVec.getLsbD_append, h]
    · simpa [BitVec.getLsbD_append, h, show i - n < m by omega] using congrArg (·.getLsbD i) hmask

theorem eq_layoutI16_iff (w : Word) (op : Byte) (v : Half) :
    w = layoutI16 op v ↔ w &&& 0xFFFF0000#32 = layoutI16 op 0#16 ∧ v = w.extractLsb' 0 16 :=
  eq_append_iff_and_mask w (op ++ 0#8) v

theorem eq_layoutI8_iff (w : Word) (op b : Byte) :
    w = layoutI8 op b ↔ w &&& 0xFFFFFF00#32 = layoutI8 op 0#8 ∧ b = w.extractLsb' 0 8 :=
  eq_append_iff_and_mask w (op ++ 0#16) b

namespace Machine

/-- A word with a reserved bit set is answered with RESERVED_NONZERO (R64, R140). -/
theorem runWord_of_reserved {w : Word} {n : Nat} {rsv : BitVec n} {i : Instr}
    (hd : decode w = unlessReserved rsv i) (hr : rsv ≠ 0#n) (s : State) :
    runWord w s = .next { s with pending := some ⟨0x0002#16, true⟩ } :=
  runWord_of_decode_error (hd.trans ((unlessReserved_error rsv i _).mpr ⟨hr, rfl⟩)) s

theorem runWord_encode (i : Instr) (s : State) : runWord (encode i) s = exec i s :=
  runWord_of_decode_ok (decode_encode i) s

/-! ### The iteration and the step are linear and lose nothing (R89) -/

@[simp] theorem shiftXorN_zero (n : Nat) : shiftXorN n 0#16 = 0#16 := by
  simpa using shiftXorN_xor n 0#16 0#16

/-- A linear map with no kernel is injective. -/
theorem injective_of_xor {f : Half → Half} (hxor : ∀ x y, f (x ^^^ y) = f x ^^^ f y)
    (hker : ∀ x, f x = 0#16 → x = 0#16) : Function.Injective f := by
  intro x y h
  refine BitVec.xor_eq_zero_iff.mp (hker _ ?_)
  rw [hxor, h, BitVec.xor_self]

/-- The generator is odd, so it is no register doubled: only zero iterates to zero. -/
theorem eq_zero_of_shiftXor_eq_zero (x : Half) (h : shiftXor x = 0#16) : x = 0#16 := by
  have hx := two_mul_toNat_eq_xor_shiftXor x
  rw [h, BitVec.toNat_ofNat, Nat.zero_mod, Nat.xor_zero] at hx
  refine BitVec.eq_of_toNat_eq ?_
  split at hx
  · omega
  · simpa using hx

theorem shiftXor_injective : Function.Injective shiftXor :=
  injective_of_xor shiftXor_xor eq_zero_of_shiftXor_eq_zero

theorem shiftXorN_injective (n : Nat) : Function.Injective (shiftXorN n) := by
  induction n with
  | zero => exact fun _ _ h => h
  | succ n ih => exact ih.comp shiftXor_injective

theorem byteStep_xor (r r' : Half) (b b' : Byte) :
    byteStep (r ^^^ r') (b ^^^ b') = byteStep r b ^^^ byteStep r' b' := by
  simp only [byteStep, stepBs, byteInHigh_xor, ← shiftXorN_xor]
  congr 1
  ac_rfl

@[simp] theorem byteStep_zero : byteStep 0#16 0#8 = 0#16 := by decide

theorem byteStep_injective (b : Byte) : Function.Injective fun r => byteStep r b :=
  fun _ _ h => (BitVec.xor_left_inj _).mp (shiftXorN_injective 8 h)

theorem byteInHigh_injective : Function.Injective byteInHigh := by
  intro a b h
  have hnat := congrArg BitVec.toNat h
  rw [byteInHigh_toNat, byteInHigh_toNat] at hnat
  exact BitVec.eq_of_toNat_eq (Nat.eq_of_mul_eq_mul_left (by decide) hnat)

/-- From one register two bytes never lead to the same value. -/
theorem byteStep_injective_byte (r : Half) : Function.Injective (byteStep r) :=
  fun _ _ h => byteInHigh_injective ((BitVec.xor_right_inj _).mp (shiftXorN_injective 8 h))

theorem romRead_ne_zero {k : Byte} (hk : k ≠ 0#8) : romRead k ≠ 0#16 := by
  rw [← shiftXorN_byteInHigh, ← shiftXorN_zero 8]
  exact fun h => hk (byteInHigh_injective (shiftXorN_injective 8 h))

/-! ### `compute` is linear and loses nothing -/

theorem compute_injective (bs : List Byte) : Function.Injective fun r => compute r bs := by
  induction bs with
  | nil => exact fun _ _ h => h
  | cons b bs ih => exact ih.comp (byteStep_injective b)

theorem compute_xor (r r' : Half) {bs es : List Byte} (h : bs.length = es.length) :
    compute (r ^^^ r') (List.zipWith (· ^^^ ·) bs es) = compute r bs ^^^ compute r' es := by
  induction bs generalizing r r' es with
  | nil =>
    obtain rfl := List.length_eq_zero_iff.mp h.symm
    rfl
  | cons b bs ih =>
    cases es with
    | nil => cases h
    | cons e es =>
      rw [List.zipWith_cons_cons, compute_cons, byteStep_xor, ih _ _ (Nat.succ.inj h)]
      rfl

theorem compute_replicate_zero (n : Nat) : compute 0#16 (List.replicate n 0#8) = 0#16 := by
  induction n with
  | zero => rfl
  | succ n ih => rw [List.replicate_succ, compute_cons, byteStep_zero, ih]

/-- Two messages that differ in one byte lead to different registers. -/
theorem compute_ne_of_byte_ne (r : Half) (before after : List Byte) {b b' : Byte} (h : b ≠ b') :
    compute r (before ++ b :: after) ≠ compute r (before ++ b' :: after) := by
  rw [compute_append, compute_append, compute_cons, compute_cons]
  exact fun heq => h (byteStep_injective_byte _ (compute_injective after heq))

theorem finalize_injective : Function.Injective finalize :=
  fun _ _ h => (BitVec.xor_right_inj _).mp h

theorem finalize_ne_self (r : Half) : finalize r ≠ r := by
  intro h
  have hxor : Config.finalXor ^^^ r = 0#16 ^^^ r := h.trans (BitVec.zero_xor).symm
  exact absurd ((BitVec.xor_left_inj r).mp hxor) (by decide)

theorem compute_finalize_ne (r : Half) (bs : List Byte) : compute (finalize r) bs ≠ compute r bs :=
  fun h => finalize_ne_self r (compute_injective bs h)

theorem engineCompute_eq_compute (eng : Config.Engine) (r : Half) (bs : List Byte) :
    engineCompute eng r bs = compute r bs := by
  induction bs generalizing r with
  | nil => rfl
  | cons b bs ih => rw [engineCompute, engineStep_eq_byteStep, ih, compute_cons]

/-! ### A value fed as two bytes (95_test_vectors.md 2.9) -/

theorem byteInHigh_highByte_xor_lowByte (v : Half) :
    byteInHigh (highByte v) ^^^ (lowByte v).setWidth 16 = v := by
  ext i hi
  by_cases h : i < 8
  · simp [byteInHigh, lowByte, h, BitVec.getLsbD_eq_getElem hi]
  · have hsub : i - 8 < 8 := by omega
    have hadd : 8 + (i - 8) = i := by omega
    simp [byteInHigh, highByte, lowByte, h, hsub, hadd, BitVec.getLsbD_eq_getElem hi]

/-- Feeding a value high byte first is XORing it in whole and iterating sixteen times. -/
theorem compute_highByte_lowByte (r v : Half) :
    compute r [highByte v, lowByte v] = shiftXorN 16 (r ^^^ v) := by
  have hlow : byteInHigh (lowByte v) = shiftXorN 8 ((lowByte v).setWidth 16) := by
    have := (lowByte v).isLt
    rw [shiftXorN_eq_shiftLeft (by rw [BitVec.toNat_setWidth]; omega), byteInHigh]
  calc compute r [highByte v, lowByte v]
      = shiftXorN 8 (shiftXorN 8 (r ^^^ byteInHigh (highByte v)) ^^^ byteInHigh (lowByte v)) := rfl
    _ = shiftXorN 16 (r ^^^ (byteInHigh (highByte v) ^^^ (lowByte v).setWidth 16)) := by
      rw [hlow, ← shiftXorN_xor, BitVec.xor_assoc, ← shiftXorN_add 8 8]
    _ = shiftXorN 16 (r ^^^ v) := by rw [byteInHigh_highByte_xor_lowByte]

/-! ### Check values (95_test_vectors.md) -/

/-- The register after "123456789" (R88, 95_test_vectors.md 1.2). Evaluated on the table-driven
engine: an iteration of the bit-serial one repeats its argument, so a long run of it grows too deep. -/
theorem compute_digits :
    compute 0x0000#16 [0x31#8, 0x32#8, 0x33#8, 0x34#8, 0x35#8, 0x36#8, 0x37#8, 0x38#8, 0x39#8] =
      0x3D48#16 :=
  (engineCompute_eq_compute .table _ _).symm.trans (by decide)

theorem shiftXorN_finalXor : shiftXorN 16 Config.finalXor = 0xA366#16 := by
  have hfirst : shiftXorN 8 Config.finalXor = 0x5348#16 := by decide
  rw [shiftXorN_add 8 8, hfirst]
  decide

/-! ### The last response of a run -/

theorem archRun_concat_getLast? (c : Half) (ws : List Word) (w : Word) :
    (archRun c (ws ++ [w])).2.getLast? = some (archStep (archRun c ws).1 w).2 := by
  simp [archRun_append, archRun_cons]

/-- Whatever ran before, a LOAD, bytes and a last command answer for the loaded value and the bytes. -/
theorem archRun_load_byteWords_getLast? (c r : Half) (ws : List Word) (bs : List Byte) (w : Word) :
    (archRun c (ws ++ encode (.load r) :: (byteWords bs ++ [w]))).2.getLast? =
      some (archStep (compute r bs) w).2 := by
  rw [archRun_append, archRun_load_byteWords]
  simp

end Machine

end Sys2Proof

open Sys2Proof Sys2Proof.Machine

/-- Settles O21: the word is the I16 layout of its operand, and a chain continued from another value
never meets the first again. -/
theorem loadSetsCrc : Obligations.LoadSetsCrc := by
  refine ⟨exec_load, fun w v => (decode_eq_ok_iff w _).trans (eq_layoutI16_iff w _ v),
    fun w s hop hr => runWord_of_reserved (decode_of_opField_load hop) hr s,
    fun s => ⟨_, exec_load s.crc s, rfl⟩, compute_finalize_ne, fun s _ => ?_⟩
  exact (runWord_encode (.load 0x1234#16) s).trans (exec_load _ s)

/-- Settles O22: the word is the I8 layout of its operand, and both engines take the byte step. -/
theorem byteAdvancesCrc : Obligations.ByteAdvancesCrc := by
  refine ⟨fun eng b s => by rw [exec_byte, engineStep_eq_byteStep],
    fun w b => (decode_eq_ok_iff w _).trans (eq_layoutI8_iff w _ b),
    fun w s hop hr => runWord_of_reserved (decode_of_opField_byte hop) hr s,
    compute_replicate_zero, by decide, by decide, by decide, fun s hs => ?_⟩
  have hstep : byteStep s.crc 0x31#8 = 0xB201#16 := by
    rw [hs]
    decide
  exact (runWord_encode (.byte 0x31#8) s).trans (by rw [exec_byte, hstep])

/-- Settles O23: READ answers the register and leaves it, so a second READ answers the same. -/
theorem readReturnsCrc : Obligations.ReadReturnsCrc := by
  refine ⟨exec_read, fun w => ?_,
    fun w s hop hr => runWord_of_reserved (decode_of_opField_read hop) hr s,
    fun s t h => ?_, rfl, fun s hs => ?_⟩
  · rw [show (0xFFFFFFFF#32 : Word) = BitVec.allOnes 32 from rfl, BitVec.and_allOnes]
    exact decode_eq_ok_iff w .read
  · cases h
    rfl
  · have hcrc : s.crc = 0x3D48#16 := hs.trans compute_digits
    exact ⟨hcrc, (runWord_encode .read s).trans (by rw [exec_read, hcrc])⟩

/-- Settles O28, by induction on the bytes from the equality of the two steps. -/
theorem enginesAgree : Obligations.EnginesAgree :=
  ⟨stepTab_eq_stepBs,
    fun e e' r bs => (engineCompute_eq_compute e r bs).trans (engineCompute_eq_compute e' r bs).symm,
    engineCompute_eq_compute⟩

/-- Settles O30: the doubled value is the next one with the generator added if the top bit was set. -/
theorem iterationRemovesGenerator : Obligations.IterationRemovesGenerator := by
  intro x
  have htop : x.getLsbD 15 = decide (2 ^ 15 ≤ x.toNat) :=
    (BitVec.msb_eq_getLsbD_last x).symm.trans (BitVec.msb_eq_decide x)
  simp only [two_mul_toNat_eq_xor_shiftXor, htop, decide_eq_true_eq]
  split_ifs
  · rw [Nat.xor_right_comm, Nat.xor_self, Nat.zero_xor]
  · rw [Nat.zero_xor]

/-- Settles O33: the step is injective on the finitely many registers. -/
theorem stepIsLinearBijection : Obligations.StepIsLinearBijection :=
  ⟨byteStep_xor, byteStep_zero, fun b => Finite.injective_iff_bijective.mp (byteStep_injective b),
    fun _ => romRead_ne_zero⟩

/-- Settles O34: a flipped bit makes another byte, and nothing after it makes up for it. -/
theorem bitFlipChangesChecksum : Obligations.BitFlipChangesChecksum := by
  refine ⟨fun r bs es h => by simpa using compute_xor r 0#16 h, fun r before after b k hk heq => ?_⟩
  have hbyte : b ^^^ 1#8 <<< k ≠ b := by
    simpa using (by decide : ∀ k < 8, 1#8 <<< k ≠ 0#8) k hk
  exact compute_ne_of_byte_ne r before after hbyte (finalize_injective heq)

/-- Settles O35, by the run of each group of BYTE commands. -/
theorem chainingLaw : Obligations.ChainingLaw := by
  refine ⟨fun r b1 b2 => (compute_append r b1 b2).symm, compute_nil, fun c r b1 b2 => ⟨?_, ?_⟩,
    fun c r b1 b2 => ⟨?_, ?_⟩⟩
  · simp [archRun_cons, archRun_append, archRun_byteWords, compute_append]
  · simp [archRun_cons, archRun_byteWords]
  · simpa using archRun_load_byteWords_getLast? c r [] b1 (encode .read)
  · simp [archRun_cons, archRun_append, archRun_byteWords, compute_append]

/-- Settles O40: the value READ answers is `compute c b1`, and `compute` goes on from it. -/
theorem saveRestoreResumes : Obligations.SaveRestoreResumes := by
  intro c c' b1 b2 others
  have hresume (d : Half) (ws : List Word) :
      (archRun d (ws ++ encode (.load (compute c b1)) :: (byteWords b2 ++ [encode .final]))).2.getLast? =
        some ⟨finalize (compute c (b1 ++ b2)), false⟩ := by
    rw [archRun_load_byteWords_getLast?, archStep_encode_final, compute_append]
  refine ⟨compute c b1, ?_, ?_, hresume c' []⟩
  · rw [archRun_concat_getLast?, archStep_encode_read, archRun_byteWords]
  · simpa using hresume c (byteWords b1 ++ encode .read :: others)

/-- Settles O41: the check bytes XOR the register with itself, or with its complement. -/
theorem residueIsConstant : Obligations.ResidueIsConstant := by
  intro r bs
  constructor
  · rw [compute_append, compute_highByte_lowByte, BitVec.xor_self, shiftXorN_zero]
  · rw [compute_append, compute_highByte_lowByte, finalize, BitVec.xor_comm Config.finalXor,
      ← BitVec.xor_assoc, BitVec.xor_self, BitVec.zero_xor,
      shiftXorN_finalXor]

end

section
/-! PROOFS. The table (41_table.md R100 to R103): an entry is the step from zero, so the table inherits
the linearity and the injectivity of the step. -/

namespace Sys2Proof.Machine

theorem stepBs_zero (k : Byte) : stepBs 0#16 k = romRead k := by
  rw [stepBs, BitVec.zero_xor, shiftXorN_byteInHigh]

theorem romRead_xor (a b : Byte) : romRead (a ^^^ b) = romRead a ^^^ romRead b := by
  simp only [← shiftXorN_byteInHigh, byteInHigh_xor, shiftXorN_xor]

theorem romRead_injective : Function.Injective romRead := by
  intro a b h
  rw [← stepBs_zero, ← stepBs_zero] at h
  exact byteStep_injective_byte 0#16 h

theorem romRead_zero : romRead 0#8 = 0#16 := rfl

theorem romRead_eq_zero_iff (k : Byte) : romRead k = 0#16 ↔ k = 0#8 :=
  ⟨not_imp_not.mp romRead_ne_zero, fun h => h ▸ romRead_zero⟩

end Sys2Proof.Machine

open Sys2Proof Sys2Proof.Machine

/-- Settles O32: the byte's place in the register, and the iterations on it, are linear and injective. -/
theorem tableIsLinear : Obligations.TableIsLinear :=
  ⟨romRead_xor, romRead_eq_zero_iff, fun _ _ h => romRead_injective h⟩

/-- Settles O26: the word is the I8 layout of its operand, and BYTE from zero leaves the table entry. -/
theorem tblReturnsTableEntry : Obligations.TblReturnsTableEntry := by
  refine ⟨exec_tbl, fun w k => (decode_eq_ok_iff w _).trans (eq_layoutI8_iff w _ k),
    fun w s hop hr => runWord_of_reserved (decode_of_opField_tbl hop) hr s,
    romRead_zero, rfl, fun k c => ?_, fun s => ?_⟩
  · have hrun := archRun_load_byteWords_getLast? c 0#16 [] [k] (encode .read)
    rwa [archStep_encode_read, compute_cons, compute_nil, byteStep, stepBs_zero] at hrun
  · exact (runWord_encode (.tbl 0xFF#8) s).trans (exec_tbl _ s)

/-- Settles O31: both forms of the generator rule are the eight iterations on the byte in the high half. -/
theorem romHoldsGeneratorValues : Obligations.RomHoldsGeneratorValues :=
  ⟨rom_length, fun k => (stepBs_zero k).symm, fun k => (shiftXorN_byteInHigh k).symm,
    romRead_zero, rfl, rfl, rfl, rfl, rfl, rfl, rfl, rfl, rfl⟩

end

section
/-! PROOFS. The finalizer (42_finalize.md R120 to R124): the one's complement, asked for by FINAL of the
register and by FINV of an operand, and never a value from which a chain may go on. -/

namespace Sys2Proof.Machine

/-! ### The finalizer as a map (R120) -/

@[simp] theorem finalize_finalize (r : Half) : finalize (finalize r) = r := by
  rw [finalize_eq_not, finalize_eq_not, BitVec.not_not]

theorem finalize_zero : finalize 0x0000#16 = 0xFFFF#16 := rfl

theorem finalize_ones : finalize 0xFFFF#16 = 0x0000#16 := rfl

/-! ### The word of a command without an operand -/

/-- Its mask is every bit, so the word that matches is the command's one word. -/
theorem decode_eq_ok_iff_and_mask (w : Word) (i : Instr) :
    decode w = .ok i ↔ w &&& 0xFFFFFFFF#32 = encode i := by
  rw [show (0xFFFFFFFF#32 : Word) = BitVec.allOnes 32 from rfl, BitVec.and_allOnes]
  exact decode_eq_ok_iff w i

/-! ### Commands and runs that finalise -/

theorem exec_final_of_crc {s : State} {r : Half} (h : s.crc = r) :
    exec .final s = .next { s with pending := some ⟨finalize r, false⟩ } :=
  h ▸ exec_final s

/-- A FINV at the end of a run answers for its operand, whatever the register holds (R122). -/
theorem archRun_concat_finv_getLast? (c : Half) (ws : List Word) (v : Half) :
    (archRun c (ws ++ [encode (.finv v)])).2.getLast? = some ⟨finalize v, false⟩ := by
  rw [archRun_concat_getLast?, archStep_encode_finv]

/-- A FINAL in mid-stream leaves the register to the bytes after it (R121, R124). -/
theorem archRun_byteWords_final_byteWords (c : Half) (b1 b2 : List Byte) :
    (archRun c (byteWords b1 ++ encode .final :: byteWords b2)).1 = compute c (b1 ++ b2) := by
  rw [archRun_append, archRun_cons, archStep_encode_final, archRun_byteWords, archRun_byteWords,
    compute_append]

/-- The example of R124: a chain that goes on from the finalised register. Each half is evaluated on the
table-driven engine, as the check value `compute_digits` is. -/
theorem compute_finalize_split_digits :
    compute (finalize (compute 0x0000#16 [0x31#8, 0x32#8, 0x33#8, 0x34#8]))
      [0x35#8, 0x36#8, 0x37#8, 0x38#8, 0x39#8] = 0x8003#16 := by
  have hfirst : compute 0x0000#16 [0x31#8, 0x32#8, 0x33#8, 0x34#8] = 0xC9A7#16 :=
    (engineCompute_eq_compute .table _ _).symm.trans (by decide)
  rw [hfirst, ← engineCompute_eq_compute .table]
  decide

end Sys2Proof.Machine

open Sys2Proof Sys2Proof.Machine

/-- Settles O37: the value READ answers is the register, so FINV finalises what FINAL would. -/
theorem oneShotLaw : Obligations.OneShotLaw := by
  intro c b
  refine ⟨?_, compute 0x0000#16 b, ?_, ?_⟩
  · simpa using archRun_load_byteWords_getLast? c 0x0000#16 [] b (encode .final)
  · simpa using archRun_load_byteWords_getLast? c 0x0000#16 [] b (encode .read)
  · simpa using archRun_concat_finv_getLast? c
      (encode (.load 0x0000#16) :: (byteWords b ++ [encode .read])) (compute 0x0000#16 b)

/-- Settles O39: the finalizer fixes no register and `compute` tells any two apart, so a chain that goes
on from a finalised register stays wrong. -/
theorem finaliseOnceAtTheEnd : Obligations.FinaliseOnceAtTheEnd := by
  refine ⟨compute_finalize_ne, fun r bs => by rw [finalize_finalize], fun c r bs => ?_, ?_,
    compute_finalize_split_digits, archRun_byteWords_final_byteWords⟩
  · rw [archRun_cons, archStep_encode_load, archRun_byteWords, finalize_eq_not]
  · exact (compute_append _ _ _).symm.trans compute_digits

/-- Settles O24: FINAL answers the complement of the register and leaves it, so a second FINAL answers
the same. -/
theorem finalReturnsComplement : Obligations.FinalReturnsComplement := by
  refine ⟨exec_final, fun w => decode_eq_ok_iff_and_mask w .final,
    fun w s hop hr => runWord_of_reserved (decode_of_opField_final hop) hr s,
    fun s t h => ?_, ?_, fun s t h => ?_, fun s hs => ?_⟩
  · cases h
    rfl
  · rw [exec_final_of_crc State.reset_crc, finalize_zero]
  · have hcrc : t.crc = 0x0000#16 := by
      cases h
      rfl
    rw [exec_final_of_crc hcrc, finalize_zero]
  · have hcrc : s.crc = 0x3D48#16 := hs.trans compute_digits
    have hfinal : finalize 0x3D48#16 = 0xC2B7#16 := rfl
    exact (runWord_encode .final s).trans (by rw [exec_final_of_crc hcrc, hfinal, ← hcrc])

/-- Settles O25: the word is the I16 layout of its operand, and the answer is the operand's complement. -/
theorem finvReturnsOperandComplement : Obligations.FinvReturnsOperandComplement := by
  refine ⟨exec_finv, fun w v => (decode_eq_ok_iff w _).trans (eq_layoutI16_iff w _ v),
    fun w s hop hr => runWord_of_reserved (decode_of_opField_finv hop) hr s,
    exec_finv 0x0000#16, exec_finv 0xFFFF#16, fun s => ?_⟩
  exact (runWord_encode (.finv 0x1234#16) s).trans (exec_finv _ s)

/-- Settles O38: the XOR with all ones is the bitwise complement. -/
theorem finalizeIsComplement : Obligations.FinalizeIsComplement :=
  ⟨fun r => ⟨rfl, finalize_eq_not r, finalize_finalize r⟩, finalize_zero, finalize_ones⟩

end

section
/-! PROOFS. The exception (60_exceptions.md R140 to R147, R154): an illegal word is answered in band and
leaves nothing behind, no command and no edge after the first reset stops the block, and a loss of power
leaves a block on which only a reset edge has a meaning. -/

namespace Sys2Proof.Machine

/-! ### An illegal word in the architectural step and in a run -/

/-- The architectural step of an illegal word is its response alone (R141). -/
theorem archStep_of_illegalWord {c : IllegalCause} {w : Word} (h : IllegalWord c w) (crc : Half) :
    archStep crc w = (crc, ⟨c.code, true⟩) := by
  have hd : decode w = .error c := h
  simp only [archStep, hd]

/-- Words after an illegal one run as if it had not been sent (R147). -/
theorem archRun_cons_of_illegalWord {c : IllegalCause} {w : Word} (h : IllegalWord c w) (crc : Half)
    (ws : List Word) :
    archRun crc (w :: ws) = ((archRun crc ws).1, ⟨c.code, true⟩ :: (archRun crc ws).2) := by
  rw [archRun_cons, archStep_of_illegalWord h]

theorem archRun_illegalWord_crc {c : IllegalCause} {w : Word} (h : IllegalWord c w) (crc : Half)
    (before after : List Word) :
    (archRun crc (before ++ w :: after)).1 = (archRun crc (before ++ after)).1 := by
  rw [archRun_append, archRun_append, archRun_cons_of_illegalWord h]

/-- The response to an illegal word stands among the responses where the word stands among the words. -/
theorem archRun_illegalWord_responses {c : IllegalCause} {w : Word} (h : IllegalWord c w) (crc : Half)
    (before after : List Word) :
    (archRun crc (before ++ w :: after)).2 =
      (archRun crc (before ++ after)).2.take before.length ++
        ⟨c.code, true⟩ :: (archRun crc (before ++ after)).2.drop before.length := by
  rw [archRun_append, archRun_append, archRun_cons_of_illegalWord h,
    List.take_left' (archRun_length crc before), List.drop_left' (archRun_length crc before)]

/-! ### A word accepted and its response taken -/

/-- Two edges take a ready block through a word: it completes where it transfers, and the host takes
its response at the next edge (R30, R67). -/
theorem steps_accept_take {s : State} {e e' : Edge} {rest : List HostEvent} (hready : s.Ready)
    (hs : s.schedule = .edge e :: .edge e' :: rest)
    (hr : e.rst = false) (hv : e.cmdValid = true) (hf : e.finish = true)
    (hr' : e'.rst = false) (ht : e'.rspReady = true) :
    steps 2 s = .next { s with
      crc := (archStep s.crc e.cmdData).1
      schedule := rest
      accepted := s.accepted ++ [e.cmdData]
      delivered := s.delivered ++ [(archStep s.crc e.cmdData).2] } := by
  obtain ⟨hi, hx, hp⟩ := hready
  have haccept := steps_then_step (steps_zero s) (step_accept_finish s e _ hs hr hi hx hp hv hf)
  rw [steps_then_step haccept (step_take _ e' rest _ rfl hr' hi hx rfl ht), ← hp]

theorem runSchedule_cons (w : Word) (ws : List Word) :
    runSchedule (w :: ws) = .edge (.offer w) :: .edge .take :: runSchedule ws := rfl

/-- A host that sends words one by one and takes each response observes the architectural run of them,
from every state in which the block is ready (R170). -/
theorem steps_runSchedule (ws : List Word) {s : State} (hready : s.Ready)
    (hs : s.schedule = runSchedule ws) :
    steps (2 * ws.length) s = .next { s with
      crc := (archRun s.crc ws).1
      schedule := []
      accepted := s.accepted ++ ws
      delivered := s.delivered ++ (archRun s.crc ws).2 } := by
  induction ws generalizing s with
  | nil =>
    have hnil : [] = s.schedule := hs.symm
    simp [steps_zero, hnil]
  | cons w ws ih =>
    rw [runSchedule_cons] at hs
    have hword := steps_accept_take hready hs rfl rfl rfl rfl rfl
    rw [List.length_cons, Nat.mul_succ, Nat.add_comm, steps_add 2 _ s _ hword, ih ?ready ?schedule]
    case ready => exact hready
    case schedule => rfl
    simp [archRun_cons, Edge.offer]

/-- From the reset state, the whole observation of the run. -/
theorem steps_runSchedule_reset (ws : List Word) :
    steps (2 * ws.length) { State.reset with schedule := runSchedule ws } = .next { State.reset with
      crc := (archRun State.reset.crc ws).1
      accepted := ws
      delivered := (archRun State.reset.crc ws).2 } :=
  steps_runSchedule ws ⟨rfl, rfl, rfl⟩ rfl

/-! ### Before and at the first reset -/

theorem step_reset {s : State} {e : Edge} {rest : List HostEvent} (hs : s.schedule = .edge e :: rest)
    (hr : e.rst = true) :
    step s = .next { State.reset with schedule := rest, freeDraws := s.freeDraws } := by
  rw [step_edge s e rest hs, edgeStep_reset e _ hr]
  rfl

theorem step_uninitialized {s : State} {e : Edge} {rest : List HostEvent}
    (hs : s.schedule = .edge e :: rest) (hr : e.rst = false) (hi : s.initialized = false) :
    step s = .refused .beforeFirstReset := by
  rw [step_edge s e rest hs, edgeStep_uninitialized e { s with schedule := rest } hr hi]

end Sys2Proof.Machine

open Sys2Proof Sys2Proof.Machine

/-- Settles O9: the edge at which the word completes does its architectural step, which is the response
alone, and the next edge delivers it. -/
theorem illegalCommandAnsweredInBand : Obligations.IllegalCommandAnsweredInBand := by
  refine ⟨rfl, rfl, fun s e e' rest c hready hs hw hr hv hf hr' ht => ⟨?_, ?_⟩⟩
  · rw [commandDoesArchitecturalStep.1 s e _ hready hs hr hv hf, archStep_of_illegalWord hw]
  · rw [steps_accept_take hready hs hr hv hf hr' ht, archStep_of_illegalWord hw]

/-- Settles O49: both runs are the architectural runs of their words, and there the illegal word only
inserts its response. -/
theorem illegalCommandLeavesNoTrace : Obligations.IllegalCommandLeavesNoTrace := by
  intro before after w c hw
  exact ⟨_, _, steps_runSchedule_reset (before ++ w :: after), steps_runSchedule_reset (before ++ after),
    archRun_illegalWord_crc hw _ before after, archRun_illegalWord_responses hw _ before after⟩

/-- Settles O10, by the event of the step: a loss of power or an edge, scheduled or idle. -/
theorem stepAnswersAfterReset : Obligations.StepAnswersAfterReset := by
  intro s hi
  cases hs : s.schedule with
  | nil => rw [step_nil s hs]; exact edgeStep_answers .idle hi
  | cons ev rest =>
    cases ev with
    | edge e => rw [step_edge s e rest hs]; exact edgeStep_answers e hi
    | powerLoss => exact ⟨_, step_powerLoss s rest hs⟩

/-- Settles O14: what a loss of power leaves depends on the schedule and the count of draws only, and it
is not initialized. -/
theorem powerLossNeedsReset : Obligations.PowerLossNeedsReset := by
  constructor
  · intro s s' rest hs hs' hd
    rw [step_powerLoss s rest hs, step_powerLoss s' rest hs']
    exact congrArg Host.Outcome.next (State.losePower_congr _ _ rfl hd)
  · intro s rest hs
    refine ⟨_, step_powerLoss s rest hs, rfl, rfl, rfl, rfl, rfl, rfl, fun e more hrest => ?_⟩
    exact ⟨fun hr => step_uninitialized hrest hr rfl, fun hr => step_reset hrest hr⟩

/-- Settles O27, by the command: only LOAD and BYTE write `crc`. -/
theorem commandsCompleteWithoutError : Obligations.CommandsCompleteWithoutError := by
  intro i s
  cases i with
  | load v => exact ⟨_, _, exec_load v s⟩
  | byte b => exact ⟨_, _, exec_byte b s⟩
  | read => exact ⟨s.crc, _, exec_read s⟩
  | final => exact ⟨s.crc, _, exec_final s⟩
  | finv v => exact ⟨s.crc, _, exec_finv v s⟩
  | tbl k => exact ⟨s.crc, _, exec_tbl k s⟩

end

section
/-! PROOFS. Reset and time (70_reset_and_hazards.md R160 to R164, R168, R170): a reset edge restarts the
block from every state, a command completes when its latency has passed, and what a run shows at rest
depends on the words it accepted and not on when they completed. -/

namespace Sys2Proof.Machine

/-! ### The edges of one execution -/

theorem latencyOf_pos {l : Config.Latency} (hl : l.legal) (w : Word) : 1 ≤ latencyOf l w := by
  obtain ⟨hbyte, hother⟩ := hl
  unfold latencyOf
  split
  next => exact hbyte
  next => exact hother

/-- The edges of an execution, with the completing edge apart from the ones before it. -/
theorem ExecutionEdges.exists_eq_concat {n : Nat} {w : Word} {es : List Edge}
    (hes : ExecutionEdges n w es) (hn : 1 ≤ n) :
    ∃ (waits : List Edge) (last : Edge), es = waits ++ [last] ∧ waits.length + 1 = n ∧
      (∀ e ∈ waits, e.rst = false ∧ e.finish = false) ∧ last.rst = false ∧ last.finish = true := by
  obtain ⟨hlen, -, hrst, hwait, hlast⟩ := hes
  obtain rfl | ⟨waits, last, rfl⟩ := es.eq_nil_or_concat'
  · simp only [List.length_nil] at hlen
    omega
  · rw [List.dropLast_concat] at hwait
    exact ⟨waits, last, rfl, by simpa using hlen,
      fun e he => ⟨hrst e (List.mem_append_left _ he), hwait e he⟩,
      hrst last (by simp), hlast last (by simp)⟩

/-- While a command is in execution no response is valid and no command can be accepted (R30 clause 4). -/
theorem State.outputs_of_executing {s : State} {ex : Execution} (hi : s.initialized = true)
    (hx : s.executing = some ex) (hp : s.pending = none) : s.outputs false = some ⟨false, none⟩ := by
  simp [s.outputs_initialized hi, State.cmdReady, hx, hp]

/-- A command in execution stays there through edges at which it does not complete, and nothing else
of the block changes (R28(b), R46). -/
theorem steps_wait (waits : List Edge) {s : State} {ex : Execution} {rest : List HostEvent}
    (hi : s.initialized = true) (hx : s.executing = some ex) (hs : s.schedule = waits.map .edge ++ rest)
    (hw : ∀ e ∈ waits, e.rst = false ∧ e.finish = false) :
    ∃ ex', ex'.word = ex.word ∧
      steps waits.length s = .next { s with executing := some ex', schedule := rest } := by
  induction waits generalizing s ex with
  | nil =>
    obtain rfl : s.schedule = rest := hs
    exact ⟨ex, rfl, by rw [← hx]; rfl⟩
  | cons e waits ih =>
    obtain ⟨hr, hf⟩ := hw e List.mem_cons_self
    have hs' : s.schedule = .edge e :: (waits.map .edge ++ rest) := hs
    have hwait := step_wait s e _ ex hs' hr hi hx hf
    obtain ⟨ex', hword, hsteps⟩ := ih (s := { s with executing := some ex.tick, schedule := _ }) hi rfl
      rfl fun e' he' => hw e' (List.mem_cons_of_mem _ he')
    exact ⟨ex', hword, (steps_succ _ _ _ hwait).trans hsteps⟩

/-- An accepted word is in execution after any number of edges at which it does not complete. -/
theorem steps_accept_wait (e : Edge) (waits : List Edge) {s : State} {rest : List HostEvent}
    (hready : s.Ready) (hs : s.schedule = (e :: waits).map .edge ++ rest) (hv : e.cmdValid = true)
    (hw : ∀ e' ∈ e :: waits, e'.rst = false ∧ e'.finish = false) :
    ∃ ex, ex.word = e.cmdData ∧ steps (e :: waits).length s = .next { s with
      executing := some ex
      schedule := rest
      accepted := s.accepted ++ [e.cmdData] } := by
  obtain ⟨hi, hx, hp⟩ := hready
  obtain ⟨hr, hf⟩ := hw e List.mem_cons_self
  have hs' : s.schedule = .edge e :: (waits.map .edge ++ rest) := hs
  have haccept := step_accept_wait s e _ hs' hr hi hx hp hv hf
  obtain ⟨ex, hword, hsteps⟩ := steps_wait waits
    (s := { s with executing := some (.start s.crc e.cmdData), schedule := _, accepted := _ }) hi rfl
    rfl fun e' he' => hw e' (List.mem_cons_of_mem _ he')
  exact ⟨ex, hword, (steps_succ _ _ _ haccept).trans hsteps⟩

section
variable {n : Nat} {w : Word} {es : List Edge} {s : State} {rest : List HostEvent}
  (hn : 1 ≤ n) (hready : s.Ready) (hes : ExecutionEdges n w es) (hs : s.schedule = es.map .edge ++ rest)
include hn hready hes hs

/-- When the edges of an execution have passed, the word has done its architectural step. -/
theorem steps_executionEdges : steps n s = .next { s with
    crc := (archStep s.crc w).1
    pending := some (archStep s.crc w).2
    schedule := rest
    accepted := s.accepted ++ [w] } := by
  obtain ⟨waits, last, rfl, rfl, hw, hr, hf⟩ := hes.exists_eq_concat hn
  obtain ⟨-, hhead, -⟩ := hes
  cases waits with
  | nil =>
    obtain ⟨hv, rfl⟩ := hhead last rfl
    obtain ⟨hi, hx, hp⟩ := hready
    exact steps_then_step (steps_zero s) (step_accept_finish s last rest hs hr hi hx hp hv hf)
  | cons e waits =>
    obtain ⟨hv, rfl⟩ := hhead e rfl
    obtain ⟨ex, hword, hsteps⟩ := steps_accept_wait e waits (rest := .edge last :: rest) hready
      (by simpa using hs) hv hw
    obtain ⟨hi, hx, -⟩ := hready
    rw [steps_then_step hsteps (step_finish _ last rest ex rfl hr hi rfl hf), hword, ← hx]

/-- At every edge of an execution but the last, the word is still in execution and `crc` is as before. -/
theorem steps_executionEdges_before {k : Nat} (hk : 1 ≤ k) (hkn : k < n) :
    ∃ t, steps k s = .next t ∧ t.outputs false = some ⟨false, none⟩ ∧ t.crc = s.crc := by
  obtain ⟨waits, last, rfl, rfl, hw, -, -⟩ := hes.exists_eq_concat hn
  obtain ⟨-, hhead, -⟩ := hes
  obtain ⟨j, rfl⟩ := Nat.exists_eq_add_of_le' hk
  cases waits with
  | nil => simp at hkn
  | cons e waits =>
    obtain ⟨hv, -⟩ := hhead e rfl
    have hj : j ≤ waits.length := by simp only [List.length_cons] at hkn; omega
    have hprefix : (e :: waits.take j).length = j + 1 := by simp [hj]
    obtain ⟨ex, -, hsteps⟩ := steps_accept_wait e (waits.take j)
      (rest := (waits.drop j).map .edge ++ .edge last :: rest) hready
      (by rw [← List.append_assoc, ← List.map_append]; simp [hs]) hv
      fun e' he' => hw e' (List.take_subset (j + 1) (e :: waits) he')
    obtain ⟨hi, -, hp⟩ := hready
    rw [hprefix] at hsteps
    exact ⟨_, hsteps, State.outputs_of_executing hi rfl hp, rfl⟩

end

/-! ### What a run shows when it has come to rest -/

/-- At the end of any run from reset that has come to rest, `crc` and the responses delivered are those
of the architectural run of the accepted words (R47, R170). -/
theorem archRun_accepted_of_steps {n : Nat} {es : List HostEvent} {s : State}
    (h : steps n { State.reset with schedule := es } = .next s) (hready : s.Ready) :
    archRun Config.resetCrc s.accepted = (s.crc, s.delivered) := by
  obtain ⟨-, hreset, -⟩ := invariantsHoldAtReset es
  have hagrees := steps_induction State.TranscriptAgrees transcriptKept n _ s hreset h
  obtain ⟨hi, hx, hp⟩ := hready
  simpa [hp] using (State.transcriptAgrees_iff_of_executing_none hi hx).mp hagrees

end Sys2Proof.Machine

open Sys2Proof Sys2Proof.Machine

/-- Settles O20: the word is in execution from the edge at which it transfers to the one at which it
completes. -/
theorem responseAfterLatency : Obligations.ResponseAfterLatency := by
  intro l s w es rest hl hready hes hs
  have hn := latencyOf_pos hl w
  exact ⟨steps_executionEdges hn hready hes hs,
    fun k hk hkn => steps_executionEdges_before hn hready hes hs hk hkn⟩

/-- Settles O48, from the run of a host that sends words one by one and takes each response. -/
theorem finishedRunObservation : Obligations.FinishedRunObservation :=
  steps_runSchedule_reset

/-- Settles O50: both observations are the architectural run of the same words. -/
theorem observationIndependentOfTiming : Obligations.ObservationIndependentOfTiming := by
  intro n n' es es' s s' h h' hready hready' haccepted
  have hrun := archRun_accepted_of_steps h hready
  have hrun' := archRun_accepted_of_steps h' hready'
  rw [haccepted, hrun'] at hrun
  obtain ⟨hcrc, hdelivered⟩ := Prod.mk.inj hrun
  exact ⟨hcrc.symm, hdelivered.symm⟩

/-- Settles O11: without reset an edge is refused before the first reset, and with reset it restarts. -/
theorem nothingRunsBeforeFirstReset : Obligations.NothingRunsBeforeFirstReset :=
  ⟨⟨rfl, rfl, rfl⟩, State.outputs_uninitialized, fun _ _ _ hi hs hr => step_uninitialized hs hr hi,
    fun _ _ _ _ hs hr => step_reset hs hr⟩

/-- Settles O13: an edge with reset leaves the reset state, whatever state and levels it meets. -/
theorem resetEdgeRestarts : Obligations.ResetEdgeRestarts := by
  intro s e rest hs hr
  refine ⟨by rw [hr]; exact s.outputs_rst, _, step_reset hs hr, ?_⟩
  exact ⟨rfl, rfl, rfl, rfl, rfl, State.outputs_rst _, State.outputs_initialized _ rfl⟩

end
